-- ==== Sys2Proof/Word.lean ====
section
/-! DEFINITION. The two value types of the block (00_scope.md R9): a word is a 32-bit and a byte an
8-bit unsigned value. Everything computed with them stands in the files of Machine/. -/

namespace Sys2Proof

/-- A 32-bit unsigned value (00_scope.md R9). -/
abbrev Word := BitVec 32

/-- An 8-bit unsigned value (00_scope.md R9). -/
abbrev Byte := BitVec 8

end Sys2Proof
end

