-- ==== Sys2Proof/Machine/Bits.lean ====
section
/-! DEFINITION. The word and byte operators of 00_scope.md R10, which every rule uses. -/

namespace Sys2Proof.Machine

/-- `byte(w, k)`: byte position `k` of `w` (00_scope.md R10). -/
def byteOf (w : Word) (k : BitVec 2) : Byte := w.extractLsb' (8 * k.toNat) 8

/-- `word(b0, b1, b2, b3)`, the word whose byte position `k` holds `bk` (00_scope.md R10). -/
def wordOf (b0 b1 b2 b3 : Byte) : Word := b3 ++ b2 ++ b1 ++ b0

/-- `rotl32(w, n)` (00_scope.md R10). R10 gives it for n below 32; at a larger n it rotates by n mod 32, DESIGN
CHOICE, which no command reaches (log entry 21). -/
def rotl32 (w : Word) (n : Nat) : Word := w.rotateLeft n

/-- `rotr32(w, n) = rotl32(w, (32 - n) mod 32)` (00_scope.md R10). At n above 32, where R10 gives none, it is
the identity, since `32 - n` is 0 in Nat: DESIGN CHOICE, which no command reaches (log entry 21). -/
def rotr32 (w : Word) (n : Nat) : Word := rotl32 w ((32 - n) % 32)

/-- The four bytes of a word, byte position 0 first: the byte lanes of a 32-bit access
(20_memory.md R53). -/
def lanesOf (w : Word) : List Byte := [byteOf w 0, byteOf w 1, byteOf w 2, byteOf w 3]

end Sys2Proof.Machine
end

