-- ==== Sys2Proof/Config.lean ====
section
/-! DEFINITION. What an integration of the block fixes (00_scope.md R8) and the block's constants.
The three OPEN parameters of R8 are opaque: nothing can be proved of their values, so a claim about
this model holds for every base address, every number of hosts and every latency. -/

namespace Sys2Proof.Config

/-- `AESKX_BASE` divided by 512: OPEN (00_scope.md R8, 20_memory.md R51; log entry 5). -/
opaque baseIndex : Nat

/-- The number of bytes of the register window (20_memory.md R50, R51). -/
def windowBytes : Nat := 512

/-- `AESKX_BASE`, a multiple of 512 (20_memory.md R51). -/
def base : Nat := windowBytes * baseIndex

/-- `AESKX_HOSTS` less one: OPEN (00_scope.md R8, 20_memory.md R62; log entry 7). -/
opaque otherHosts : Nat

/-- `AESKX_HOSTS`, the number of bus masters that can reach the window (00_scope.md R8). -/
def hosts : Nat := otherHosts + 1

/-- `AESKX_LAT(op, ksz)`: OPEN (00_scope.md R8, 70_reset_and_hazards.md R213; log entry 8). Its
arguments are the operation and the key size alone, so it cannot depend on key or data. -/
opaque latency (op : BitVec 4) (ksz : BitVec 2) : Nat

/-- The value `CAP` reads in every state (10_state.md R27). -/
def cap : Word := 0x0000000F

end Sys2Proof.Config
end

