-- ==== Sys2Proof/Syntax.lean ====
section
/-! DEFINITION. The terms of the block: key sizes, the eight commands of spec/opcode_table.json, the
fields of a command word, the error codes, the registers of the window, and what reaches the block
and leaves it on the bus. -/

namespace Sys2Proof

/-- The three key sizes; no other exists (00_scope.md R4). -/
inductive KeySize where
  | k128
  | k192
  | k256
deriving DecidableEq, Repr

/-- The commands, one constructor per row of spec/opcode_table.json (30_encoding.md R84). `bs` is the
byte selector, the only operand a command word carries beside the key size (R80, R83). -/
inductive Instr where
  | keysched128
  | keysched192
  | keysched256
  | encrypt128
  | encrypt192
  | encrypt256
  | encround (bs : BitVec 2)
  | encroundlast (bs : BitVec 2)
deriving DecidableEq, Repr

/-- The fields of a command word, in the order of 30_encoding.md R77 from bit 0 upward. -/
structure CmdFields where
  /-- bits 3:0, the operation (R78) -/
  op : BitVec 4
  /-- bits 5:4, the key size (R79) -/
  ksz : BitVec 2
  /-- bits 7:6, reserved (R81) -/
  resLow : BitVec 2
  /-- bits 9:8, the byte selector (R80) -/
  bs : BitVec 2
  /-- bits 31:10, reserved (R81) -/
  resHigh : BitVec 22
deriving DecidableEq, Repr

/-- The command errors of 60_exceptions.md R182, in the order of their codes 1 to 5. -/
inductive CommandError where
  /-- code 1, ILLEGAL_OP -/
  | illegalOp
  /-- code 2, RESERVED_BITS -/
  | reservedBits
  /-- code 3, BAD_FIELD -/
  | badField
  /-- code 4, NO_SCHEDULE -/
  | noSchedule
  /-- code 5, SIZE_MISMATCH -/
  | sizeMismatch
deriving DecidableEq, Repr

/-- What decoding a command word answers (30_encoding.md R82): one command, or one error by name. -/
inductive Decoded where
  | command (i : Instr)
  | reject (e : CommandError)
deriving DecidableEq, Repr

/-- A row of the opcode map (30_encoding.md R84): a word stands for the row's command when its bits
under `mask` are `pattern`. -/
structure OpcodeRow where
  mnemonic : String
  pattern : Word
  mask : Word
deriving DecidableEq, Repr

/-- The registers of the window (10_state.md R20, 20_memory.md R52), and `reserved` for the offsets
the map leaves without one (R56). -/
inductive Reg where
  | cmd
  | status
  | cap
  | pAcc
  | pIn
  | blkIn (j : Fin 4)
  | blkOut (j : Fin 4)
  | key (k : Fin 8)
  | rk (n : Fin 60)
  | reserved
deriving DecidableEq, Repr

/-- What a host access asks for (20_memory.md R55, `kind` and `v`). -/
inductive AccessKind where
  | read
  | write (v : Word)
deriving DecidableEq, Repr

/-- A host access that reaches the window. `off` is the address less `AESKX_BASE` (20_memory.md R51,
R55; log entry 5), `bytes` the width `n` of R55, and `host` says which bus master is answered
(log entry 7). -/
structure Access where
  host : Nat
  off : BitVec 9
  bytes : Nat
  kind : AccessKind
deriving DecidableEq, Repr

/-- What can reach the block: a host access (20_memory.md R61) or the platform's reset
(70_reset_and_hazards.md R210). -/
inductive BusEvent where
  | access (a : Access)
  | reset
deriving DecidableEq, Repr

/-- What the block answers on the bus to an access it accepts: the word read, or that the write is
done (20_memory.md R55, R67; log entries 2 and 19). -/
inductive AnswerData where
  | readData (v : Word)
  | written
deriving DecidableEq, Repr

/-- One answer and the bus master it goes to (log entries 2 and 7). -/
structure Answer where
  host : Nat
  data : AnswerData
deriving DecidableEq, Repr

end Sys2Proof
end

