-- ==== Sys2Proof/WellFormed.lean ====
section
/-! DEFINITION. Which terms the spec admits. An access is well formed when 20_memory.md R55 accepts
its width and its alignment; the fields of a command word are well formed when none of the three
decoding checks of 30_encoding.md R82 fails. A term of `Instr` cannot be ill formed: its only operand
is the two-bit byte selector, of which every value is legal (R80). -/

namespace Sys2Proof

/-- The width check of 20_memory.md R55: only 32-bit accesses. -/
def Access.widthOk (a : Access) : Bool := a.bytes == 4

/-- The alignment check of 20_memory.md R55: the offset is a multiple of 4. -/
def Access.aligned (a : Access) : Bool := a.off.toNat % 4 == 0

/-- An access the window accepts (20_memory.md R55). -/
def Access.wellFormed (a : Access) : Bool := a.widthOk && a.aligned

/-- The operation is one of the four of 30_encoding.md R78. -/
def CmdFields.opOk (f : CmdFields) : Bool := f.op == 1 || f.op == 2 || f.op == 3 || f.op == 4

/-- The reserved bits are zero (30_encoding.md R81). -/
def CmdFields.reservedOk (f : CmdFields) : Bool := f.resLow == 0 && f.resHigh == 0

/-- The field the operation does not use is zero and the key size exists (30_encoding.md R77, R79). -/
def CmdFields.fieldsOk (f : CmdFields) : Bool :=
  if f.op == 1 || f.op == 2 then f.bs == 0 && f.ksz != 3 else f.ksz == 0

/-- The fields of a legal command word (30_encoding.md R84, R85). -/
def CmdFields.wellFormed (f : CmdFields) : Bool := f.opOk && f.reservedOk && f.fieldsOk

/-- Every term of `Instr` is a legal command (30_encoding.md R80, R84). -/
def Instr.wellFormed : Instr → Bool
  | .keysched128 => true
  | .keysched192 => true
  | .keysched256 => true
  | .encrypt128 => true
  | .encrypt192 => true
  | .encrypt256 => true
  | .encround _ => true
  | .encroundlast _ => true

end Sys2Proof
end

