-- ==== Sys2Proof/Decode.lean ====
section
/-! DEFINITION. Decoding a command word (30_encoding.md R77, R82), total, every word that is no
command rejected by the name of its error, and the encoder written from the same table. -/

namespace Sys2Proof

/-- The fields of a command word (30_encoding.md R77). -/
def fieldsOf (c : Word) : CmdFields where
  op := c.extractLsb' 0 4
  ksz := c.extractLsb' 4 2
  resLow := c.extractLsb' 6 2
  bs := c.extractLsb' 8 2
  resHigh := c.extractLsb' 10 22

/-- The word with the given fields (30_encoding.md R77, the bit picture). -/
def wordOfFields (f : CmdFields) : Word := f.resHigh ++ f.bs ++ f.resLow ++ f.ksz ++ f.op

/-- The row a KSZ code selects (30_encoding.md R79, 00_scope.md R7); 0b11 selects none. -/
def keySizeOf (ksz : BitVec 2) : Option KeySize :=
  if ksz = 0b00 then some .k128
  else if ksz = 0b01 then some .k192
  else if ksz = 0b10 then some .k256
  else none

/-- The KEYSCHED command of a key size (30_encoding.md R84). -/
def Instr.keysched : KeySize → Instr
  | .k128 => .keysched128
  | .k192 => .keysched192
  | .k256 => .keysched256

/-- The ENCRYPT command of a key size (30_encoding.md R84). -/
def Instr.encrypt : KeySize → Instr
  | .k128 => .encrypt128
  | .k192 => .encrypt192
  | .k256 => .encrypt256

/-- A key-size command: KEYSCHED (OP 0x1) or ENCRYPT (OP 0x2). BAD_FIELD where the byte selector is not
0b00 or the key size is 0b11 (30_encoding.md R82). -/
def decodeSized (make : KeySize → Instr) (f : CmdFields) : Decoded :=
  if f.bs ≠ 0 then .reject .badField
  else match keySizeOf f.ksz with
    | some k => .command (make k)
    | none => .reject .badField

/-- A primitive command: ENCROUND (OP 0x3) or ENCROUNDLAST (OP 0x4). BAD_FIELD where the key size is
not 0b00 (30_encoding.md R82). -/
def decodePrimitive (make : BitVec 2 → Instr) (f : CmdFields) : Decoded :=
  if f.ksz ≠ 0 then .reject .badField else .command (make f.bs)

/-- The checks of `Execute` in the order written, then its case split (30_encoding.md R82). -/
def decodeFields (f : CmdFields) : Decoded :=
  if f.op ≠ 1 ∧ f.op ≠ 2 ∧ f.op ≠ 3 ∧ f.op ≠ 4 then .reject .illegalOp
  else if f.resLow ≠ 0 ∨ f.resHigh ≠ 0 then .reject .reservedBits
  else if f.op = 1 then decodeSized Instr.keysched f
  else if f.op = 2 then decodeSized Instr.encrypt f
  else if f.op = 3 then decodePrimitive Instr.encround f
  else decodePrimitive Instr.encroundlast f

/-- The command a word written to CMD selects, or the error it yields (30_encoding.md R82). -/
def decode (c : Word) : Decoded := decodeFields (fieldsOf c)

/-- The fields of a command, from the columns OP, KSZ and BS of 30_encoding.md R84. -/
def Instr.fields : Instr → CmdFields
  | .keysched128 => ⟨0x1, 0b00, 0, 0, 0⟩
  | .keysched192 => ⟨0x1, 0b01, 0, 0, 0⟩
  | .keysched256 => ⟨0x1, 0b10, 0, 0, 0⟩
  | .encrypt128 => ⟨0x2, 0b00, 0, 0, 0⟩
  | .encrypt192 => ⟨0x2, 0b01, 0, 0, 0⟩
  | .encrypt256 => ⟨0x2, 0b10, 0, 0, 0⟩
  | .encround bs => ⟨0x3, 0b00, 0, bs, 0⟩
  | .encroundlast bs => ⟨0x4, 0b00, 0, bs, 0⟩

/-- The command word of a command (30_encoding.md R84). -/
def encode (i : Instr) : Word := wordOfFields i.fields

/-- The opcode map, row for row (30_encoding.md R84). -/
def opcodeMap : List OpcodeRow :=
  [⟨"KEYSCHED128", 0x00000001, 0xFFFFFFFF⟩, ⟨"KEYSCHED192", 0x00000011, 0xFFFFFFFF⟩,
   ⟨"KEYSCHED256", 0x00000021, 0xFFFFFFFF⟩, ⟨"ENCRYPT128", 0x00000002, 0xFFFFFFFF⟩,
   ⟨"ENCRYPT192", 0x00000012, 0xFFFFFFFF⟩, ⟨"ENCRYPT256", 0x00000022, 0xFFFFFFFF⟩,
   ⟨"ENCROUND", 0x00000003, 0xFFFFFCFF⟩, ⟨"ENCROUNDLAST", 0x00000004, 0xFFFFFCFF⟩]

/-- The word's bits under the row's mask are the row's pattern (30_encoding.md R84). -/
def OpcodeRow.covers (r : OpcodeRow) (c : Word) : Bool := (c &&& r.mask) == r.pattern

/-- The name the opcode map gives a command (30_encoding.md R84). -/
def Instr.mnemonic : Instr → String
  | .keysched128 => "KEYSCHED128"
  | .keysched192 => "KEYSCHED192"
  | .keysched256 => "KEYSCHED256"
  | .encrypt128 => "ENCRYPT128"
  | .encrypt192 => "ENCRYPT192"
  | .encrypt256 => "ENCRYPT256"
  | .encround _ => "ENCROUND"
  | .encroundlast _ => "ENCROUNDLAST"

/-- Decoding the four byte lanes of a write, lane 0 first (20_memory.md R53); any other number of bytes
is no command word (30_encoding.md R76) and selects nothing. -/
def decodeLanes : List Byte → Option Decoded
  | [b0, b1, b2, b3] => some (decode (Machine.wordOf b0 b1 b2 b3))
  | _ => none

/-- The command the decoder reads from an instruction whose bits are the low `nbits` bits of `w`, laid
out in the byte lanes of the write; `none` where it is rejected. -/
def decodeTableWord (nbits w : Nat) : Option Instr :=
  match decodeLanes (Machine.lanesOf (BitVec.ofNat 32 (w % 2 ^ nbits))) with
  | some (.command i) => some i
  | _ => none

end Sys2Proof
end

