-- ==== Sys2Proof/Machine/State.lean ====
section
/-! DEFINITION. The state of the block: every register of 10_state.md R20 that stores something, and
what has reached the block and left it on the bus. `CMD` and `CAP` store nothing (R23, R27): the one
operation that reads registers gives their values (log entry 12). -/

namespace Sys2Proof.Machine

/-- Why a step stops. -/
inductive Fault where
  /-- The bus-error response to a host access of a width other than 32 bits or at an offset that is no
  multiple of 4 (20_memory.md R55, 60_exceptions.md R185), at this host address. Raised by serving the
  access. The spec says that in a model it is a fault. SAFE: the block itself goes on unchanged, so the
  model only has fewer runs (log entry 4). -/
  | busError (addr : Nat)
deriving DecidableEq, Repr

/-- Why a command has no meaning. No command of the model is refused. -/
inductive Refusal where
  /-- A command that has no meaning yet, by its mnemonic. Raised by no arm of `exec`: all eight commands
  have their meaning. SAFE. -/
  | notModelled (mnemonic : String)
deriving DecidableEq, Repr

/-- The state of AESKX (10_state.md R20). `KS_SIZE` and `ERR` keep the widths of R24, so that what R37
says of their values is a theorem about the commands and not a fact about the type (log entry 15). -/
structure State where
  /-- `STATUS.KS_VALID`, bit 0 (R24, R25) -/
  ksValid : Bool
  /-- `STATUS.KS_SIZE`, bits 2:1 (R24, R26) -/
  ksSize : BitVec 2
  /-- `STATUS.ERR`, bits 7:4 (R24, R28) -/
  err : BitVec 4
  /-- `P_ACC` (R29) -/
  pAcc : Word
  /-- `P_IN` (R30) -/
  pIn : Word
  /-- `BLK_IN[0..3]` (R31) -/
  blkIn : Vector Word 4
  /-- `BLK_OUT[0..3]` (R32) -/
  blkOut : Vector Word 4
  /-- `KEY[0..7]` (R33) -/
  key : Vector Word 8
  /-- `RK[0..59]` (R34) -/
  rk : Vector Word 60
  /-- The model's own: what has reached the block and is not served yet, oldest first (20_memory.md R61;
  log entry 1). -/
  pending : List BusEvent
  /-- The model's own: what the block has answered so far, oldest first (log entry 2). -/
  answers : List Answer
deriving DecidableEq, Repr

/-- The block right after reset (10_state.md R38, 70_reset_and_hazards.md R210), with nothing on the
bus (log entries 1 and 2). -/
def State.reset : State where
  ksValid := false
  ksSize := 0b00
  err := 0
  pAcc := 0x00000000
  pIn := 0x00000000
  blkIn := Vector.replicate 4 0x00000000
  blkOut := Vector.replicate 4 0x00000000
  key := Vector.replicate 8 0x00000000
  rk := Vector.replicate 60 0x00000000
  pending := []
  answers := []

end Sys2Proof.Machine
end

