-- ==== Sys2Proof/Machine/Operands.lean ====
section
/-! DEFINITION. The operands of the commands and of host accesses: the constants a key size selects
(00_scope.md R7), the register an offset names (20_memory.md R52), the key words a KEYSCHED reads and
the round keys an ENCRYPT reads (30_encoding.md R83). -/

namespace Sys2Proof

/-- `Nk`, the key length in words (00_scope.md R7). -/
def KeySize.nk : KeySize → Nat
  | .k128 => 4
  | .k192 => 6
  | .k256 => 8

/-- `Nr`, the number of rounds (00_scope.md R7). -/
def KeySize.nr : KeySize → Nat
  | .k128 => 10
  | .k192 => 12
  | .k256 => 14

/-- `STEPS`, the number of non-linear update steps (00_scope.md R7). -/
def KeySize.steps : KeySize → Nat
  | .k128 => 10
  | .k192 => 8
  | .k256 => 7

/-- `4(Nr+1)`, the number of schedule words (00_scope.md R7). -/
def KeySize.scheduleWords (k : KeySize) : Nat := 4 * (k.nr + 1)

/-- The KSZ code of a key size (00_scope.md R7, 30_encoding.md R79). -/
def KeySize.code : KeySize → BitVec 2
  | .k128 => 0b00
  | .k192 => 0b01
  | .k256 => 0b10

/-- The register at an offset of the window (20_memory.md R52). Offsets reach it only as multiples of 4
(R55). -/
def regAt (off : BitVec 9) : Reg :=
  let o := off.toNat
  if o = 0x000 then .cmd
  else if o = 0x004 then .status
  else if o = 0x008 then .cap
  else if o = 0x010 then .pAcc
  else if o = 0x014 then .pIn
  else if h : 0x020 ≤ o ∧ o < 0x030 then .blkIn ⟨(o - 0x020) / 4, by omega⟩
  else if h : 0x030 ≤ o ∧ o < 0x040 then .blkOut ⟨(o - 0x030) / 4, by omega⟩
  else if h : 0x040 ≤ o ∧ o < 0x060 then .key ⟨(o - 0x040) / 4, by omega⟩
  else if h : 0x100 ≤ o ∧ o < 0x1F0 then .rk ⟨(o - 0x100) / 4, by omega⟩
  else .reserved

/-- The offset of a register (20_memory.md R52); `none` for the reserved offsets, of which there are
several. -/
def Reg.offset : Reg → Option (BitVec 9)
  | .cmd => some 0x000
  | .status => some 0x004
  | .cap => some 0x008
  | .pAcc => some 0x010
  | .pIn => some 0x014
  | .blkIn j => some (BitVec.ofNat 9 (0x020 + 4 * j.val))
  | .blkOut j => some (BitVec.ofNat 9 (0x030 + 4 * j.val))
  | .key k => some (BitVec.ofNat 9 (0x040 + 4 * k.val))
  | .rk n => some (BitVec.ofNat 9 (0x100 + 4 * n.val))
  | .reserved => none

/-- The registers a host may write data to, the RW rows of the map (20_memory.md R52, R58). -/
def Reg.hostWritable : Reg → Bool
  | .cmd => false
  | .status => false
  | .cap => false
  | .pAcc => true
  | .pIn => true
  | .blkIn _ => true
  | .blkOut _ => false
  | .key _ => true
  | .rk _ => false
  | .reserved => false

/-- The registers a command writes (30_encoding.md R83). -/
def Instr.writes (i : Instr) (r : Reg) : Bool :=
  match i, r with
  | _, .status => true
  | .keysched128, .rk _ => true
  | .keysched192, .rk _ => true
  | .keysched256, .rk _ => true
  | .keysched128, .key _ => true
  | .keysched192, .key _ => true
  | .keysched256, .key _ => true
  | .encrypt128, .blkOut _ => true
  | .encrypt192, .blkOut _ => true
  | .encrypt256, .blkOut _ => true
  | .encround _, .pAcc => true
  | .encroundlast _, .pAcc => true
  | _, _ => false

namespace Machine

/-- A Block or a RoundKey: four ordered words (00_scope.md, glossary). -/
abbrev Block := Vector Word 4

/-- `KEY[0..Nk-1]`, the key material a KEYSCHED of this size reads (42_key_schedule.md R138,
10_state.md R33). -/
def keyMaterial (k : KeySize) (s : State) : List Word := s.key.toList.take k.nk

/-- `RK[n]` (10_state.md R34). Only `n < 60` is ever read (00_scope.md R7; log entry 17). -/
def scheduleWord (rk : Vector Word 60) (n : Nat) : Word := if h : n < 60 then rk[n] else 0

/-- RoundKey `r`, the words `RK[4r .. 4r+3]` (10_state.md R34, 41_codec.md R125). -/
def roundKey (rk : Vector Word 60) (r : Nat) : Block :=
  #v[scheduleWord rk (4 * r), scheduleWord rk (4 * r + 1), scheduleWord rk (4 * r + 2),
     scheduleWord rk (4 * r + 3)]

end Machine

end Sys2Proof
end

