-- ==== Sys2Proof/Machine/Flags.lean ====
section
/-! DEFINITION. The status bits. The block has no arithmetic flag (10_state.md R36): the only status
bits are the fields of STATUS, written by the commands that name them (R24 to R28). -/

namespace Sys2Proof

/-- The value an error records in `STATUS.ERR` (60_exceptions.md R182). -/
def CommandError.code : CommandError → BitVec 4
  | .illegalOp => 1
  | .reservedBits => 2
  | .badField => 3
  | .noSchedule => 4
  | .sizeMismatch => 5

namespace Machine

/-- The value success records in `STATUS.ERR` (60_exceptions.md R182, code 0). -/
def errOk : BitVec 4 := 0

/-- `STATUS` as the word a host reads (20_memory.md R67, offset 0x004; 10_state.md R24). -/
def statusWord (s : State) : Word :=
  (0#24 ++ s.err ++ 0#1 ++ s.ksSize ++ BitVec.ofBool s.ksValid : BitVec 32)

/-- `STATUS.ERR <- v`, the one write of ERR that a command makes (10_state.md R28). -/
def State.setErr (v : BitVec 4) (s : State) : State := { s with err := v }

/-- `STATUS.KS_VALID <- 1; STATUS.KS_SIZE <- ksz` (10_state.md R25, R26; 42_key_schedule.md R138). -/
def State.setSchedule (ksz : BitVec 2) (s : State) : State :=
  { s with ksValid := true, ksSize := ksz }

end Machine

end Sys2Proof
end

