-- ==== Sys2Proof/Machine/Ops.lean ====
section
/-! DEFINITION. The operations every command and access is written from: ending a command well or with
an error (60_exceptions.md R181; the block has no other kind of exception, R180, R188), writing the
registers, reading a register, answering on the bus, and reset. -/

namespace Sys2Proof.Machine

/-- The outcome type of a step of this machine. -/
abbrev Result := Host.Outcome State Fault Refusal

/-- `raise Error(code)`: the command ends with `STATUS.ERR <- code` and no other state change
(60_exceptions.md R181, 00_scope.md R11). -/
def raiseError (e : CommandError) (s : State) : State := s.setErr e.code

/-- A command that succeeds writes 0 to `STATUS.ERR` (10_state.md R28, 60_exceptions.md R184). -/
def succeed (s : State) : State := s.setErr errOk

/-- `P_ACC <- v` (10_state.md R29). -/
def State.setPAcc (v : Word) (s : State) : State := { s with pAcc := v }

/-- `P_IN <- v` (10_state.md R30). -/
def State.setPIn (v : Word) (s : State) : State := { s with pIn := v }

/-- `BLK_IN[j] <- v` (10_state.md R31). -/
def State.setBlkIn (j : Fin 4) (v : Word) (s : State) : State :=
  { s with blkIn := s.blkIn.set j.val v j.isLt }

/-- `KEY[k] <- v` (10_state.md R33). -/
def State.setKey (k : Fin 8) (v : Word) (s : State) : State :=
  { s with key := s.key.set k.val v k.isLt }

/-- `BLK_OUT[0..3] <- C[0..3]` (43_round_function.md R164). -/
def State.setBlkOut (c : Block) (s : State) : State := { s with blkOut := c }

/-- `RK[0..59] <- v[0..59]` (42_key_schedule.md R138). -/
def State.setRk (v : Vector Word 60) (s : State) : State := { s with rk := v }

/-- `KEY[k] <- 0x00000000` for k in 0..7: the key material is consumed (42_key_schedule.md R138). -/
def State.clearKey (s : State) : State := { s with key := Vector.replicate 8 0x00000000 }

/-- The value a read of a register returns (20_memory.md R67, `RegRead`); `CMD` and the reserved offsets
read zero (R56, R57) and `CAP` its constant (10_state.md R27). -/
def readReg (r : Reg) (s : State) : Word :=
  match r with
  | .cmd => 0x00000000
  | .status => statusWord s
  | .cap => Config.cap
  | .pAcc => s.pAcc
  | .pIn => s.pIn
  | .blkIn j => s.blkIn[j]
  | .blkOut j => s.blkOut[j]
  | .key k => s.key[k]
  | .rk n => s.rk[n]
  | .reserved => 0x00000000

/-- `RegRead(off)` (20_memory.md R67). -/
def regRead (off : BitVec 9) (s : State) : Word := readReg (regAt off) s

/-- A write to a register other than `CMD` (20_memory.md R67, `RegWrite`): a read/write register takes
the value, a read-only one and a reserved offset ignore it (R56, R57). A write to `CMD` starts a command
and is Machine/Bus.lean's. -/
def writeReg (r : Reg) (v : Word) (s : State) : State :=
  match r with
  | .cmd => s
  | .status => s
  | .cap => s
  | .pAcc => s.setPAcc v
  | .pIn => s.setPIn v
  | .blkIn j => s.setBlkIn j v
  | .blkOut _ => s
  | .key k => s.setKey k v
  | .rk _ => s
  | .reserved => s

/-- The queue of what is not served yet (log entry 1). -/
def State.setPending (q : List BusEvent) (s : State) : State := { s with pending := q }

/-- An event reaches the block and waits behind those that reached it earlier (20_memory.md R61,
70_reset_and_hazards.md R212). -/
def State.receive (e : BusEvent) (s : State) : State := s.setPending (s.pending ++ [e])

/-- The block answers an access (20_memory.md R55; log entry 2). -/
def State.answer (host : Nat) (d : AnswerData) (s : State) : State :=
  { s with answers := s.answers ++ [⟨host, d⟩] }

/-- Reset (70_reset_and_hazards.md R210): every register takes its value of 10_state.md R38. What stands
on the bus is not the block's state and stays (log entry 9). -/
def resetBlock (s : State) : State :=
  { State.reset with pending := s.pending, answers := s.answers }

end Sys2Proof.Machine
end

