-- ==== Sys2Proof/Machine/Cipher.lean ====
section
/-! DEFINITION. The forward round function and the three ENCRYPT commands (43_round_function.md). -/

namespace Sys2Proof.Machine

/-- Initial whitening, and AddRoundKey wherever it is alone (43_round_function.md R161). -/
def whiten (p rk : Block) : Block := #v[p[0] ^^^ rk[0], p[1] ^^^ rk[1], p[2] ^^^ rk[2], p[3] ^^^ rk[3]]

/-- One output word: four calls of a primitive on an accumulator that starts from the round-key word, the
call with selector 0, 1, 2, 3 reading `x0`, `x1`, `x2`, `x3` (43_round_function.md R162, R163). -/
def accumulate (prim : Word → Word → BitVec 2 → Word) (seed x0 x1 x2 x3 : Word) : Word :=
  prim (prim (prim (prim seed x0 0) x1 1) x2 2) x3 3

/-- One round over a snapshot `s` of the block: output word `j` reads input word `(j+b) mod 4` with
selector `b` (43_round_function.md R162; 70_reset_and_hazards.md R215). -/
def roundWith (prim : Word → Word → BitVec 2 → Word) (rk s : Block) : Block :=
  #v[accumulate prim rk[0] s[0] s[1] s[2] s[3], accumulate prim rk[1] s[1] s[2] s[3] s[0],
     accumulate prim rk[2] s[2] s[3] s[0] s[1], accumulate prim rk[3] s[3] s[0] s[1] s[2]]

/-- A main round (43_round_function.md R162). -/
def mainRound (rk s : Block) : Block := roundWith encRound rk s

/-- The final round (43_round_function.md R163). -/
def finalRound (rk s : Block) : Block := roundWith encRoundLast rk s

/-- The block after whitening and main rounds 1 to `n` (43_round_function.md R160). -/
def afterRounds (rks : Nat → Block) (p : Block) : Nat → Block
  | 0 => whiten p (rks 0)
  | n + 1 => mainRound (rks (n + 1)) (afterRounds rks p n)

/-- `Encrypt(ksz, RKS, P)` (43_round_function.md R160). -/
def encrypt (k : KeySize) (rks : Nat → Block) (p : Block) : Block :=
  finalRound (rks k.nr) (afterRounds rks p (k.nr - 1))

/-- `EncryptCmd(ksz)` (43_round_function.md R164): the two checks in the order written, then the
encryption. -/
def encryptCmd (k : KeySize) (s : State) : State :=
  if s.ksValid = false then raiseError .noSchedule s
  else if s.ksSize ≠ k.code then raiseError .sizeMismatch s
  else succeed (s.setBlkOut (encrypt k (roundKey s.rk) s.blkIn))

/-- ENCRYPT128 (43_round_function.md R165). -/
def execEncrypt128 (s : State) : Result := .next (encryptCmd .k128 s)

/-- ENCRYPT192 (43_round_function.md R166). -/
def execEncrypt192 (s : State) : Result := .next (encryptCmd .k192 s)

/-- ENCRYPT256 (43_round_function.md R167). -/
def execEncrypt256 (s : State) : Result := .next (encryptCmd .k256 s)

end Sys2Proof.Machine
end

