-- ==== Sys2Proof/Machine/KeySchedule.lean ====
section
/-! DEFINITION. The key schedule and the three KEYSCHED commands (42_key_schedule.md). -/

namespace Sys2Proof.Machine

/-- The table RCON (42_key_schedule.md R130). -/
def rconTable : List Byte := [0x01, 0x02, 0x04, 0x08, 0x10, 0x20, 0x40, 0x80, 0x1b, 0x36]

/-- `RCON[i]` (42_key_schedule.md R130). Index 10 or above never occurs (R131; log entry 17). -/
def rcon (i : Nat) : Byte := rconTable.getD i 0

/-- `SubWord(w)`, four calls of EncRoundLast on one accumulator (42_key_schedule.md R133). -/
def subWord (w : Word) : Word :=
  encRoundLast (encRoundLast (encRoundLast (encRoundLast 0x00000000 w 0) w 1) w 2) w 3

/-- `RotWord(w)` (42_key_schedule.md R134). -/
def rotWord (w : Word) : Word := rotr32 w 8

/-- The new first live word of update step `i`, from the old first word and the old last word
`W[Nk-1]` (42_key_schedule.md R132, R135). -/
def updateFirst (i : Nat) (w0 last : Word) : Word :=
  w0 ^^^ subWord (rotWord last) ^^^ (rcon i).setWidth 32

/-- The later live words of an update step, in index order from word `k`: each takes the already updated
word `prev` before it, and word 4 of AES-256 its SubWord (42_key_schedule.md R132, R136; 70 R214). -/
def updateRest (nk : Nat) : (k : Nat) → (prev : Word) → List Word → List Word
  | _, _, [] => []
  | k, prev, w :: ws =>
    let w' := if nk = 8 ∧ k = 4 then w ^^^ subWord prev else w ^^^ prev
    w' :: updateRest nk (k + 1) w' ws

/-- `UpdateStep(Nk, W, i)` (42_key_schedule.md R132). The live words are never none: `Nk` is 4, 6 or 8. -/
def updateStep (nk i : Nat) : List Word → List Word
  | [] => []
  | w0 :: ws =>
    let w0' := updateFirst i w0 ((w0 :: ws).getLastD 0)
    w0' :: updateRest nk 1 w0' ws

/-- The loop of `KeyExpand`, `n` iterations from index `i` (42_key_schedule.md R132, R137): emit the live
words, leave once `need` words are emitted, else update. -/
def expandLoop (nk need : Nat) : (n i : Nat) → (live out : List Word) → List Word
  | 0, _, _, out => out
  | n + 1, i, live, out =>
    let out' := out ++ live
    if need ≤ out'.length then out'
    else expandLoop nk need n (i + 1) (updateStep nk i live) out'

/-- `KeyExpand(ksz, K)` (42_key_schedule.md R132): `STEPS + 1` iterations at most, extra words
discarded. -/
def keyExpand (k : KeySize) (key : List Word) : List Word :=
  (expandLoop k.nk k.scheduleWords (k.steps + 1) 0 key []).take k.scheduleWords

/-- The word a schedule places in `RK[n]`: its word `n`, or zero past its end (42_key_schedule.md
R138). -/
def scheduleRegs (k : KeySize) (out : List Word) : Vector Word 60 :=
  Vector.ofFn fun n => if n.val < k.scheduleWords then out.getD n.val 0x00000000 else 0x00000000

/-- `KeySchedCmd(ksz)` (42_key_schedule.md R138): the key is read before anything is written. -/
def keySchedCmd (k : KeySize) (s : State) : State :=
  let out := keyExpand k (keyMaterial k s)
  succeed (((s.setRk (scheduleRegs k out)).clearKey).setSchedule k.code)

/-- KEYSCHED128 (42_key_schedule.md R139). -/
def execKeysched128 (s : State) : Result := .next (keySchedCmd .k128 s)

/-- KEYSCHED192 (42_key_schedule.md R140). -/
def execKeysched192 (s : State) : Result := .next (keySchedCmd .k192 s)

/-- KEYSCHED256 (42_key_schedule.md R141). -/
def execKeysched256 (s : State) : Result := .next (keySchedCmd .k256 s)

end Sys2Proof.Machine
end

