-- ==== Sys2Proof/Machine/Dispatch.lean ====
section
/-! DEFINITION. Which meaning each command has (30_encoding.md R82, the last lines of `Execute`). -/

namespace Sys2Proof.Machine

def exec (i : Instr) (s : State) : Host.Outcome State Fault Refusal :=
  match i with
  | .keysched128 => Sys2Proof.Machine.execKeysched128 s
  | .keysched192 => Sys2Proof.Machine.execKeysched192 s
  | .keysched256 => Sys2Proof.Machine.execKeysched256 s
  | .encrypt128 => Sys2Proof.Machine.execEncrypt128 s
  | .encrypt192 => Sys2Proof.Machine.execEncrypt192 s
  | .encrypt256 => Sys2Proof.Machine.execEncrypt256 s
  | .encround bs => Sys2Proof.Machine.execEncround bs s
  | .encroundlast bs => Sys2Proof.Machine.execEncroundlast bs s

end Sys2Proof.Machine
end

