-- ==== Sys2Proof/Machine/Bus.lean ====
section
/-! DEFINITION. Serving what reaches the block: the window's addresses (20_memory.md R51), a write to CMD
(30_encoding.md R82), an access (20_memory.md R55, R67) and a reset (70_reset_and_hazards.md R210). -/

namespace Sys2Proof.Machine

/-- The host address of an offset of the window (20_memory.md R51). -/
def addressOf (off : BitVec 9) : Nat := Config.base + off.toNat

/-- The offset of a host address, `a - AESKX_BASE`; `none` outside the window, whose addresses are not
the block's (20_memory.md R51; log entry 5). -/
def offsetOf (addr : Nat) : Option (BitVec 9) :=
  if Config.base ≤ addr ∧ addr < Config.base + Config.windowBytes then
    some (BitVec.ofNat 9 (addr - Config.base))
  else none

/-- A host's `MemRead(addr, n)` or `MemWrite(addr, n, v)` (00_scope.md R11): it reaches the block, behind
what reached it earlier, if its address is in the window, and otherwise not at all (20_memory.md R51). -/
def State.hostAccess (host addr bytes : Nat) (kind : AccessKind) (s : State) : State :=
  match offsetOf addr with
  | some off => s.receive (.access ⟨host, off, bytes, kind⟩)
  | none => s

/-- `Execute(c)`, a write of `c` to CMD (30_encoding.md R82, 10_state.md R23). -/
def execute (c : Word) (s : State) : Result :=
  match decode c with
  | .command i => exec i s
  | .reject e => .next (raiseError e s)

/-- `RegWrite(off, v)` (20_memory.md R67). -/
def regWrite (off : BitVec 9) (v : Word) (s : State) : Result :=
  match regAt off with
  | .cmd => execute v s
  | r => .next (writeReg r v s)

/-- The answer to an access whose effect is done. -/
def answered (host : Nat) (d : AnswerData) : Result → Result
  | .next s => .next (s.answer host d)
  | .fault r => .fault r
  | .refused r => .refused r

/-- `HostAccess(addr, n, kind, v)` (20_memory.md R55): the bus error first, then the register function,
and the answer. -/
def serve (a : Access) (s : State) : Result :=
  if a.bytes ≠ 4 ∨ a.off.extractLsb' 0 2 ≠ 0b00 then .fault (.busError (addressOf a.off))
  else
    match a.kind with
    | .read => .next (s.answer a.host (.readData (regRead a.off s)))
    | .write v => answered a.host .written (regWrite a.off v s)

/-- Serving the oldest event that has reached the block, completely, before any later one (20_memory.md
R59, R61; 70_reset_and_hazards.md R212). With none waiting the block keeps its state (60_exceptions.md
R194; log entry 3). -/
def serveNext (s : State) : Result :=
  match s.pending with
  | [] => .next s
  | .access a :: rest => serve a (s.setPending rest)
  | .reset :: rest => .next (resetBlock (s.setPending rest))

/-- Host 0's 32-bit write of the low `nbits` bits of `w` to CMD (30_encoding.md R76; log entry 10). -/
def commandWrite (nbits w : Nat) : BusEvent :=
  .access ⟨0, 0x000, 4, .write (BitVec.ofNat 32 (w % 2 ^ nbits))⟩

/-- An arrival order of accesses is an interleaving of the hosts' own orders when each host's accesses
stand in it in that host's order, and every host is one of the `AESKX_HOSTS` (20_memory.md R62;
60_exceptions.md R192). Any interleaving can occur. -/
def Interleaving (perHost : Nat → List Access) (arrived : List Access) : Prop :=
  (∀ h, arrived.filter (fun a => a.host = h) = perHost h) ∧ ∀ a ∈ arrived, a.host < Config.hosts

end Sys2Proof.Machine
end

