-- ==== Sys2Proof/Machine/Step.lean ====
section
/-! DEFINITION. One step of the block: one event served (20_memory.md R61). -/

namespace Sys2Proof.Machine

/-- One step: the block serves the oldest event that has reached it (20_memory.md R61). -/
def step (s : State) : Host.Outcome State Fault Refusal := serveNext s

/-- The state in which the very next event served is the write of this command word to CMD. The block
fetches nothing (10_state.md R22): a command reaches it as such a write (log entry 10). -/
def State.withFetchWord (s : State) (nbits w : Nat) : State :=
  s.setPending (commandWrite nbits w :: s.pending)

end Sys2Proof.Machine
end

