-- ==== Sys2Proof/Machine/Codec.lean ====
section
/-! DEFINITION. The layout of keys, blocks and round keys in the registers (41_codec.md). The conversion
is the host's; the block holds the words. -/

namespace Sys2Proof.Machine

/-- `BytesToWords` (41_codec.md R120), of an array whose length is a multiple of 4 (log entry 16). -/
def bytesToWords : List Byte → List Word
  | b0 :: b1 :: b2 :: b3 :: rest => wordOf b0 b1 b2 b3 :: bytesToWords rest
  | _ => []

/-- `WordsToBytes` (41_codec.md R121), of any number of words. -/
def wordsToBytes : List Word → List Byte
  | [] => []
  | w :: ws => lanesOf w ++ wordsToBytes ws

/-- The ciphertext byte array, `WordsToBytes(BLK_OUT[0..3])` (41_codec.md R124). -/
def ciphertextBytes (s : State) : List Byte := wordsToBytes s.blkOut.toList

/-- The 16-byte form of RoundKey `r` (41_codec.md R125). -/
def roundKeyBytes (r : Nat) (s : State) : List Byte := wordsToBytes (roundKey s.rk r).toList

end Sys2Proof.Machine
end

