-- ==== Sys2Proof/Machine/Pseudo.lean ====
section
/-! DEFINITION. The host notation and the pseudo-instructions (30_encoding.md R87, R88), as the accesses
they expand to. They are the host's: the block sees the accesses only. -/

namespace Sys2Proof.Machine

/-- `WR off, v` (30_encoding.md R87). -/
def wr (host : Nat) (off : BitVec 9) (v : Word) : BusEvent := .access ⟨host, off, 4, .write v⟩

/-- `RD off` (30_encoding.md R87). -/
def rd (host : Nat) (off : BitVec 9) : BusEvent := .access ⟨host, off, 4, .read⟩

/-- A command mnemonic, or `CMDW c` for an arbitrary word (30_encoding.md R87). -/
def cmdw (host : Nat) (c : Word) : BusEvent := wr host 0x000 c

/-- A command by its mnemonic (30_encoding.md R87). -/
def cmd (host : Nat) (i : Instr) : BusEvent := cmdw host (encode i)

/-- Writes of `ws` to consecutive registers from offset `base` in increasing order. An offset past the
window is taken modulo 512: DESIGN CHOICE, which no pseudo-instruction of R88 reaches (log entry 22). -/
def wrAll (host : Nat) (base : Nat) : List Word → List BusEvent
  | [] => []
  | w :: ws => wr host (BitVec.ofNat 9 base) w :: wrAll host (base + 4) ws

/-- Reads of `n` consecutive registers from offset `base` in increasing order. An offset past the window is
taken modulo 512: DESIGN CHOICE (log entry 22). -/
def rdAll (host : Nat) (base : Nat) : Nat → List BusEvent
  | 0 => []
  | n + 1 => rd host (BitVec.ofNat 9 base) :: rdAll host (base + 4) n

/-- `LDKEY h`, h of 16, 24 or 32 bytes (30_encoding.md R88, 41_codec.md R123). -/
def ldkey (host : Nat) (h : List Byte) : List BusEvent := wrAll host 0x040 (bytesToWords h)

/-- `LDBLK h`, h of 16 bytes (30_encoding.md R88, 41_codec.md R124). -/
def ldblk (host : Nat) (h : List Byte) : List BusEvent := wrAll host 0x020 (bytesToWords h)

/-- `RDBLK` (30_encoding.md R88). -/
def rdblk (host : Nat) : List BusEvent := rdAll host 0x030 4

/-- `RDRK r` (30_encoding.md R88), r being a RoundKey of the window, 0 to 14. For r of 16 or more, which the
spec does not give, the offset wraps modulo 512, so that `RDRK 16` reads offsets 0x000 to 0x00C: DESIGN
CHOICE (log entry 22). -/
def rdrk (host : Nat) (r : Nat) : List BusEvent := rdAll host (0x100 + 16 * r) 4

/-- `CHKCAP`, the read (30_encoding.md R88); a host goes on only on `capPresent` of its answer
(60_exceptions.md R186). -/
def chkcap (host : Nat) : List BusEvent := [rd host 0x008]

/-- The capability check on the word read from CAP (10_state.md R27, 70_reset_and_hazards.md R211). -/
def capPresent (v : Word) : Bool := v == 0x0000000F

/-- `SUBWORD w` (30_encoding.md R88). -/
def subword (host : Nat) (w : Word) : List BusEvent :=
  [wr host 0x010 0x00000000, wr host 0x014 w, cmd host (.encroundlast 0), cmd host (.encroundlast 1),
   cmd host (.encroundlast 2), cmd host (.encroundlast 3)]

/-- `MIXCOL acc, w0, w1, w2, w3` (30_encoding.md R88). -/
def mixcol (host : Nat) (acc w0 w1 w2 w3 : Word) : List BusEvent :=
  [wr host 0x010 acc, wr host 0x014 w0, cmd host (.encround 0), wr host 0x014 w1, cmd host (.encround 1),
   wr host 0x014 w2, cmd host (.encround 2), wr host 0x014 w3, cmd host (.encround 3)]

end Sys2Proof.Machine
end

