-- ==== Sys2Proof/Machine/Reference.lean ====
section
/-! DEFINITION. Second forms of the algorithms, written from other rules of the spec than the ones the
commands are written from. No command calls them: the statements compare the commands with them. -/

namespace Sys2Proof.Machine

/-- The product of two polynomials over GF(2), before reduction (00_scope.md R12). -/
def polyMul (a b : Byte) : Nat → BitVec 16
  | 0 => 0
  | n + 1 => polyMul a b n ^^^ (if a.getLsbD n then b.setWidth 16 <<< n else 0)

/-- Reduction modulo x^8 + x^4 + x^3 + x + 1, clearing bits 7+n down to 8 (00_scope.md R12). -/
def polyReduce (p : BitVec 16) : Nat → BitVec 16
  | 0 => p
  | n + 1 => polyReduce (if p.getLsbD (8 + n) then p ^^^ (0x11B <<< n) else p) n

/-- Multiplication in GF(2^8) (00_scope.md R12). -/
def gfMul (a b : Byte) : Byte := (polyReduce (polyMul a b 8) 7).setWidth 8

/-- `y` is `inv(x)`: the multiplicative inverse of `x`, with `inv(0) = 0` (40_primitives.md R100). -/
def IsGfInverse (x y : Byte) : Prop := (x = 0 ∧ y = 0) ∨ (x ≠ 0 ∧ gfMul x y = 1)

/-- `A(y)`, the affine map of the S-box (40_primitives.md R100). -/
def sboxAffine (y : Byte) : Byte :=
  y ^^^ y.rotateLeft 1 ^^^ y.rotateLeft 2 ^^^ y.rotateLeft 3 ^^^ y.rotateLeft 4 ^^^ 0x63

/-- The S-box on each byte of a word (42_key_schedule.md R133, closed form). -/
def subBytesWord (w : Word) : Word :=
  wordOf (sbox (byteOf w 0)) (sbox (byteOf w 1)) (sbox (byteOf w 2)) (sbox (byteOf w 3))

/-- SubBytes of a block (00_scope.md, glossary). -/
def subBytes (s : Block) : Block :=
  #v[subBytesWord s[0], subBytesWord s[1], subBytesWord s[2], subBytesWord s[3]]

/-- The word whose byte position `r` is byte `r` of the `r`-th of four words. -/
def diagonal (x0 x1 x2 x3 : Word) : Word := wordOf (byteOf x0 0) (byteOf x1 1) (byteOf x2 2) (byteOf x3 3)

/-- ShiftRows: row `r` of column `j` comes from column `(j+r) mod 4` (43_round_function.md R162). -/
def shiftRows (s : Block) : Block :=
  #v[diagonal s[0] s[1] s[2] s[3], diagonal s[1] s[2] s[3] s[0], diagonal s[2] s[3] s[0] s[1],
     diagonal s[3] s[0] s[1] s[2]]

/-- MixColumns of one column held in a word (40_primitives.md R102). -/
def mixColumnWord (w : Word) : Word := mixColumn (byteOf w 0) (byteOf w 1) (byteOf w 2) (byteOf w 3)

/-- MixColumns of a block (40_primitives.md R102). -/
def mixColumns (s : Block) : Block :=
  #v[mixColumnWord s[0], mixColumnWord s[1], mixColumnWord s[2], mixColumnWord s[3]]

/-- A main round as AddRoundKey of MixColumns of ShiftRows of SubBytes (43_round_function.md R162). -/
def aesMainRound (rk s : Block) : Block := whiten (mixColumns (shiftRows (subBytes s))) rk

/-- The final round, without MixColumns (43_round_function.md R163). -/
def aesFinalRound (rk s : Block) : Block := whiten (shiftRows (subBytes s)) rk

/-- Whitening and main rounds 1 to `n` (43_round_function.md R160). -/
def aesRounds (rks : Nat → Block) (p : Block) : Nat → Block
  | 0 => whiten p (rks 0)
  | n + 1 => aesMainRound (rks (n + 1)) (aesRounds rks p n)

/-- The cipher built from the four AES steps. -/
def aesCipher (k : KeySize) (rks : Nat → Block) (p : Block) : Block :=
  aesFinalRound (rks k.nr) (aesRounds rks p (k.nr - 1))

/-- The term `t` of the flat recurrence at word `n`, from the word before it (42_key_schedule.md R142). -/
def flatTerm (k : KeySize) (n : Nat) (before : Word) : Word :=
  if n % k.nk = 0 then subBytesWord (rotWord before) ^^^ (rcon (n / k.nk - 1)).setWidth 32
  else if k.nk = 8 ∧ n % 8 = 4 then subBytesWord before
  else before

/-- `w` is the schedule of the key words `key`, by the flat recurrence (42_key_schedule.md R142). -/
def FlatSchedule (k : KeySize) (key : Nat → Word) (w : Nat → Word) : Prop :=
  (∀ n, n < k.nk → w n = key n) ∧
  ∀ n, k.nk ≤ n → n < k.scheduleWords → w n = w (n - k.nk) ^^^ flatTerm k n (w (n - 1))

end Sys2Proof.Machine
end

