-- ==== Sys2Proof/Safety.lean ====
section
/-! DEFINITION. What statements about runs are stated in: the invariant of 10_state.md R37, the states a
run from reset can reach whatever the hosts do, and the accesses no run faults on. -/

namespace Sys2Proof

/-- The key size of a KEYSCHED command. -/
def Instr.keyschedSize : Instr → Option KeySize
  | .keysched128 => some .k128
  | .keysched192 => some .k192
  | .keysched256 => some .k256
  | .encrypt128 => none
  | .encrypt192 => none
  | .encrypt256 => none
  | .encround _ => none
  | .encroundlast _ => none

/-- An event no step faults on (20_memory.md R55). -/
def BusEvent.safe : BusEvent → Bool
  | .access a => a.wellFormed
  | .reset => true

/-- The same event from the bus master `f` renames its own to. -/
def BusEvent.relabel (f : Nat → Nat) : BusEvent → BusEvent
  | .access a => .access { a with host := f a.host }
  | .reset => .reset

namespace Machine

/-- The same state with the bus masters renamed, on both sides of the bus. -/
def State.relabel (f : Nat → Nat) (s : State) : State :=
  { s with
    pending := s.pending.map (BusEvent.relabel f)
    answers := s.answers.map fun a => { a with host := f a.host } }

/-- The block's registers of 10_state.md R20 agree in two states, whatever stands on the bus. -/
def SameRegisters (s t : State) : Prop := ∀ r : Reg, readReg r s = readReg r t

/-- One call of a primitive: which one, its input word and its selector (40_primitives.md R108). -/
structure PrimCall where
  last : Bool
  inp : Word
  sel : BitVec 2
deriving DecidableEq, Repr

/-- A call on an accumulator. -/
def PrimCall.run (acc : Word) (c : PrimCall) : Word :=
  if c.last then encRoundLast acc c.inp c.sel else encRound acc c.inp c.sel

/-- What the next step's write to CMD decodes to; `none` where the next event is no write to CMD
(10_state.md R23, 20_memory.md R55). -/
def commandServed (s : State) : Option Decoded :=
  match s.pending with
  | .access ⟨_, off, n, .write c⟩ :: _ => if off = 0x000 ∧ n = 4 then some (decode c) else none
  | _ => none

/-- The next step serves a reset. -/
def resetServed (s : State) : Bool :=
  match s.pending with
  | .reset :: _ => true
  | _ => false

/-- The next step serves a 32-bit write of `v` to register `r` at an aligned offset (20_memory.md R55). -/
def WriteServed (r : Reg) (v : Word) (s : State) : Prop :=
  ∃ h off rest, off.extractLsb' 0 2 = 0b00 ∧ regAt off = r ∧
    s.pending = .access ⟨h, off, 4, .write v⟩ :: rest

/-- The key the last successful KEYSCHED since reset read, with its size: how it changes over the next
step, `g` being it before the step (10_state.md R37, item 2). -/
def lastKeyAfter (g : Option (KeySize × List Word)) (s : State) : Option (KeySize × List Word) :=
  if resetServed s then none
  else match commandServed s with
    | some (.command i) =>
      match i.keyschedSize with
      | some k => some (k, keyMaterial k s)
      | none => g
    | _ => g

/-- The words of `RK` are the schedule of `key`, then zeros (10_state.md R34, R37 item 2). -/
def HoldsSchedule (k : KeySize) (key : List Word) (s : State) : Prop :=
  key.length = k.nk ∧
  ∀ n : Fin 60, s.rk[n] = if n.val < k.scheduleWords then (keyExpand k key).getD n.val 0 else 0

/-- The invariant of 10_state.md R37, with the legal values of ERR (R24). -/
structure Inv (s : State) : Prop where
  /-- item 1 -/
  ksSize_legal : s.ksSize ≠ 0b11
  /-- item 2, the key being some key -/
  schedule : s.ksValid = true → ∃ k key, s.ksSize = k.code ∧ HoldsSchedule k key s
  /-- item 3 -/
  no_schedule : s.ksValid = false → ∀ n : Fin 60, s.rk[n] = 0
  /-- item 4 -/
  cap : readReg .cap s = 0x0000000F
  /-- item 5 -/
  status_reserved : (statusWord s).getLsbD 3 = false ∧ (statusWord s).extractLsb' 8 24 = 0
  /-- R24, the legal values of ERR -/
  err_legal : s.err.toNat ≤ 5

/-- R37 with the key of item 2 named: `g` is the key the last successful KEYSCHED read, `none` where
there is none since reset. -/
structure InvFor (g : Option (KeySize × List Word)) (s : State) : Prop where
  inv : Inv s
  valid : s.ksValid = g.isSome
  last : ∀ k key, g = some (k, key) → s.ksSize = k.code ∧ HoldsSchedule k key s

/-- The states reachable from reset (10_state.md R37), whatever accesses and resets reach the block and
whenever they do, each with the key of the last successful KEYSCHED. -/
inductive Reachable : Option (KeySize × List Word) → State → Prop where
  | reset : Reachable none State.reset
  | arrives {g s} (e : BusEvent) : Reachable g s → Reachable g (s.receive e)
  | step {g s t} : Reachable g s → Machine.step s = .next t → Reachable (lastKeyAfter g s) t

/-- A run is safe when nothing that waits is a bus error (20_memory.md R55, 60_exceptions.md R185). -/
def Safe (s : State) : Prop := ∀ e ∈ s.pending, BusEvent.safe e = true

end Machine

end Sys2Proof
end

