-- ==== Sys2Proof/Certificates/Slice0/Obligations.lean ====
section
/-! DEFINITION. The statements for the provers, one definition each. -/

open Sys2Proof Sys2Proof.Machine

/-! ### Encoding and decoding -/

/-- A word decodes to a command exactly when it is the command's word: no bit of an encoding is dropped,
and no second word means the same (30_encoding.md sections 1 to 3). -/
def Obligations.DecodeReadsExactlyTheEncodedWord : Prop :=
  ∀ (c : Word) (i : Instr), decode c = .command i ↔ c = encode i

/-- 30_encoding.md R84: the complete set of legal command words, hexadecimal word by word, and every other
word an error: one whose bits under no row's mask are that row's match. -/
def Obligations.LegalCommandWordsAreThoseOfTheMap : Prop :=
  ∀ c : Word,
    (decode c = .command .keysched128 ↔ c = 0x00000001) ∧
    (decode c = .command .keysched192 ↔ c = 0x00000011) ∧
    (decode c = .command .keysched256 ↔ c = 0x00000021) ∧
    (decode c = .command .encrypt128 ↔ c = 0x00000002) ∧
    (decode c = .command .encrypt192 ↔ c = 0x00000012) ∧
    (decode c = .command .encrypt256 ↔ c = 0x00000022) ∧
    (∀ bs : BitVec 2, decode c = .command (.encround bs) ↔ c = 0x00000003 ||| (bs.setWidth 32 <<< 8)) ∧
    (∀ bs : BitVec 2,
      decode c = .command (.encroundlast bs) ↔ c = 0x00000004 ||| (bs.setWidth 32 <<< 8)) ∧
    ((∃ bs, decode c = .command (.encround bs)) ↔ c &&& 0xFFFFFCFF = 0x00000003) ∧
    ((∃ bs, decode c = .command (.encroundlast bs)) ↔ c &&& 0xFFFFFCFF = 0x00000004) ∧
    ((∃ e, decode c = .reject e) ↔ ∀ r ∈ opcodeMap, c &&& r.mask ≠ r.pattern)

/-- Words written out from the bit patterns of 30_encoding.md R84 decode to what they stand for, and words
of each class of R85 are rejected by name (30_encoding.md section 3, 95_test_vectors.md section 3.7). -/
def Obligations.SampleWordsDecodeAsWrittenOut : Prop :=
  decode 0b00000000000000000000000000000001 = .command .keysched128 ∧
  decode 0b00000000000000000000000000100010 = .command .encrypt256 ∧
  decode 0b00000000000000000000001100000011 = .command (.encround 3) ∧
  decode 0b00000000000000000000000100000100 = .command (.encroundlast 1) ∧
  decode 0x0000000F = .reject .illegalOp ∧ decode 0x000000C4 = .reject .reservedBits ∧
  decode 0x00000432 = .reject .reservedBits ∧ decode 0x00000031 = .reject .badField ∧
  decode 0x00000101 = .reject .badField ∧ decode 0x00000013 = .reject .badField

/-- 30_encoding.md R85: every class of illegal word ends the command with its error code and no other state
change. -/
def Obligations.IllegalWordClassesReportTheirCode : Prop :=
  ∀ (c : Word) (s : State),
    ((c.extractLsb' 0 4 = 0 ∨ 5 ≤ (c.extractLsb' 0 4).toNat) →
      execute c s = .next { s with err := 1 }) ∧
    ((1 ≤ (c.extractLsb' 0 4).toNat ∧ (c.extractLsb' 0 4).toNat ≤ 4 ∧
        (c.extractLsb' 6 2 ≠ 0 ∨ c.extractLsb' 10 22 ≠ 0)) →
      execute c s = .next { s with err := 2 }) ∧
    (((c.extractLsb' 0 4 = 1 ∨ c.extractLsb' 0 4 = 2) ∧ c.extractLsb' 6 2 = 0 ∧
        c.extractLsb' 10 22 = 0 ∧ c.extractLsb' 4 2 = 0b11) →
      execute c s = .next { s with err := 3 }) ∧
    (((c.extractLsb' 0 4 = 1 ∨ c.extractLsb' 0 4 = 2) ∧ c.extractLsb' 6 2 = 0 ∧
        c.extractLsb' 10 22 = 0 ∧ c.extractLsb' 8 2 ≠ 0) →
      execute c s = .next { s with err := 3 }) ∧
    (((c.extractLsb' 0 4 = 3 ∨ c.extractLsb' 0 4 = 4) ∧ c.extractLsb' 6 2 = 0 ∧
        c.extractLsb' 10 22 = 0 ∧ c.extractLsb' 4 2 ≠ 0) →
      execute c s = .next { s with err := 3 })

/-- 60_exceptions.md R183 and R184: a command reports exactly one code, the first cause in the order 1 to 5,
and 0 where there is none, whatever ERR held before. -/
def Obligations.CommandReportsTheFirstCause : Prop :=
  ∀ (c : Word) (s : State), ∃ t, execute c s = .next t ∧
    t.err =
      (if ¬ (1 ≤ (c.extractLsb' 0 4).toNat ∧ (c.extractLsb' 0 4).toNat ≤ 4) then 1
       else if c.extractLsb' 6 2 ≠ 0 ∨ c.extractLsb' 10 22 ≠ 0 then 2
       else if (c.extractLsb' 0 4).toNat ≤ 2 ∧ (c.extractLsb' 8 2 ≠ 0 ∨ c.extractLsb' 4 2 = 0b11) then 3
       else if 3 ≤ (c.extractLsb' 0 4).toNat ∧ c.extractLsb' 4 2 ≠ 0 then 3
       else if c.extractLsb' 0 4 = 2 ∧ s.ksValid = false then 4
       else if c.extractLsb' 0 4 = 2 ∧ s.ksSize ≠ c.extractLsb' 4 2 then 5
       else 0 : BitVec 4)

/-- 60_exceptions.md R181: a command that ends with an error code changed `STATUS.ERR` and nothing else. -/
def Obligations.CommandErrorChangesOnlyErr : Prop :=
  ∀ (c : Word) (s t : State), execute c s = .next t → t.err ≠ 0 → t = { s with err := t.err }

/-! ### Serving the bus -/

/-- A write to CMD whose word decodes to a command is that command's execution, with the event taken from
the queue and the write answered; the queue and the answers are the model's own (log entries 1 and 2). In
particular `withFetchWord` runs exactly the command it is given. -/
def Obligations.StepRunsTheDecodedCommand : Prop :=
  (∀ (s : State) (h : Nat) (c : Word) (rest : List BusEvent) (i : Instr),
    s.pending = .access ⟨h, 0x000, 4, .write c⟩ :: rest → decode c = .command i →
    ∃ t, exec i (s.setPending rest) = .next t ∧ step s = .next (t.answer h .written)) ∧
  (∀ (s : State) (i : Instr),
    ∃ t, exec i s = .next t ∧ step (s.withFetchWord 32 (encode i).toNat) = .next (t.answer 0 .written))

/-- A write to CMD whose word is rejected sets ERR to the error's code; beside that the event is taken from
the queue and the write answered (30_encoding.md section 2, 60_exceptions.md section 1; log entries 1
and 2). -/
def Obligations.StepReportsARejectedWord : Prop :=
  ∀ (s : State) (h : Nat) (c : Word) (rest : List BusEvent) (e : CommandError),
    s.pending = .access ⟨h, 0x000, 4, .write c⟩ :: rest → decode c = .reject e →
    step s = .next (({ s with pending := rest, err := e.code } : State).answer h .written)

/-- 20_memory.md R55: an access of another width than 4 bytes, or at an offset that is no multiple of 4, is a
bus error at its address and has no next state; any other reads the register, or writes it, and is
answered. The queue, the answers and that a bus error ends the run are the model's own (log entries 1, 2
and 4). -/
def Obligations.HostAccessIsServedOrABusError : Prop :=
  ∀ (s : State) (a : Access) (rest : List BusEvent), s.pending = .access a :: rest →
    ((a.bytes ≠ 4 ∨ a.off.toNat % 4 ≠ 0) → step s = .fault (.busError (Config.base + a.off.toNat))) ∧
    (a.bytes = 4 → a.off.toNat % 4 = 0 → a.kind = .read →
      step s = .next ((s.setPending rest).answer a.host (.readData (regRead a.off s)))) ∧
    (a.bytes = 4 → a.off.toNat % 4 = 0 → ∀ v, a.kind = .write v →
      ∃ t, regWrite a.off v (s.setPending rest) = .next t ∧ step s = .next (t.answer a.host .written))

/-- Nothing but a bus error stops the block, and no step is a refusal: in particular every command word and
every register access completes (60_exceptions.md sections 1 and 2; log entry 4). -/
def Obligations.OnlyABusErrorStopsTheBlock : Prop :=
  ∀ s : State, (∃ t, step s = .next t) ∨
    ∃ a rest, s.pending = .access a :: rest ∧ a.wellFormed = false ∧
      step s = .fault (.busError (Config.base + a.off.toNat))

/-- 20_memory.md R51: the window is `AESKX_BASE` to `AESKX_BASE + 0x1FF`, the base a multiple of 512; an
address in it has the offset `a - AESKX_BASE`, and an access elsewhere is not the block's. That it leaves
the model's state as it is is the model's choice (log entry 5). -/
def Obligations.WindowIsFiveHundredTwelveBytesAtTheBase : Prop :=
  Config.base % 0x200 = 0 ∧
  (∀ a, Config.base ≤ a → a ≤ Config.base + 0x1FF →
    ∃ off : BitVec 9, offsetOf a = some off ∧ off.toNat = a - Config.base ∧
      ∀ h n kind (s : State), s.hostAccess h a n kind = s.receive (.access ⟨h, off, n, kind⟩)) ∧
  (∀ a, a < Config.base ∨ Config.base + 0x1FF < a →
    ∀ h n kind (s : State), s.hostAccess h a n kind = s)

/-- 20_memory.md R67, `RegRead`: what a read of every aligned offset of the window returns. -/
def Obligations.RegisterReadReturns : Prop :=
  ∀ s : State,
    regRead 0x000 s = 0x00000000 ∧
    regRead 0x004 s = (0#24 ++ s.err ++ 0b0#1 ++ s.ksSize ++ BitVec.ofBool s.ksValid : BitVec 32) ∧
    regRead 0x008 s = 0x0000000F ∧ regRead 0x010 s = s.pAcc ∧ regRead 0x014 s = s.pIn ∧
    (∀ j : Fin 4, regRead (BitVec.ofNat 9 (0x020 + 4 * j.val)) s = s.blkIn[j]) ∧
    (∀ j : Fin 4, regRead (BitVec.ofNat 9 (0x030 + 4 * j.val)) s = s.blkOut[j]) ∧
    (∀ k : Fin 8, regRead (BitVec.ofNat 9 (0x040 + 4 * k.val)) s = s.key[k]) ∧
    (∀ n : Fin 60, regRead (BitVec.ofNat 9 (0x100 + 4 * n.val)) s = s.rk[n]) ∧
    (∀ off : BitVec 9, off.toNat % 4 = 0 →
      (off.toNat = 0x00C ∨ (0x018 ≤ off.toNat ∧ off.toNat ≤ 0x01C) ∨
        (0x060 ≤ off.toNat ∧ off.toNat ≤ 0x0FC) ∨ 0x1F0 ≤ off.toNat) → regRead off s = 0x00000000)

/-- 20_memory.md R67, `RegWrite`: what a write to every aligned offset of the window does. -/
def Obligations.RegisterWriteDoes : Prop :=
  ∀ (s : State) (v : Word),
    regWrite 0x000 v s = execute v s ∧
    regWrite 0x010 v s = .next { s with pAcc := v } ∧
    regWrite 0x014 v s = .next { s with pIn := v } ∧
    (∀ j : Fin 4, regWrite (BitVec.ofNat 9 (0x020 + 4 * j.val)) v s =
      .next { s with blkIn := s.blkIn.set j.val v j.isLt }) ∧
    (∀ k : Fin 8, regWrite (BitVec.ofNat 9 (0x040 + 4 * k.val)) v s =
      .next { s with key := s.key.set k.val v k.isLt }) ∧
    (∀ off : BitVec 9, off.toNat % 4 = 0 →
      (off.toNat = 0x004 ∨ off.toNat = 0x008 ∨ off.toNat = 0x00C ∨
        (0x018 ≤ off.toNat ∧ off.toNat ≤ 0x01C) ∨ (0x030 ≤ off.toNat ∧ off.toNat ≤ 0x03C) ∨
        0x060 ≤ off.toNat) → regWrite off v s = .next s)

/-- A served write to a read/write register gives it the value and changes what no other register reads; the
event is taken from the queue and the write answered (20_memory.md section 3; log entries 1 and 2). -/
def Obligations.HostWriteChangesOnlyItsRegister : Prop :=
  ∀ (s : State) (h : Nat) (off : BitVec 9) (v : Word) (rest : List BusEvent),
    s.pending = .access ⟨h, off, 4, .write v⟩ :: rest → off.toNat % 4 = 0 →
    (regAt off).hostWritable = true →
    ∃ t, step s = .next t ∧ readReg (regAt off) t = v ∧
      (∀ r, r ≠ regAt off → readReg r t = readReg r s) ∧
      t.pending = rest ∧ t.answers = s.answers ++ [⟨h, .written⟩]

/-- 20_memory.md R56 and R57: a write to a read-only register or a reserved offset is ignored and is no
error, and CMD and the reserved offsets read zero. The queue and the answers are the model's own (log
entries 1, 2 and 19). -/
def Obligations.ReadOnlyAndReservedOffsetsIgnoreWrites : Prop :=
  ∀ (s : State) (h : Nat) (off : BitVec 9) (kind : AccessKind) (rest : List BusEvent),
    s.pending = .access ⟨h, off, 4, kind⟩ :: rest → off.toNat % 4 = 0 →
    (∀ v, kind = .write v → (regAt off).hostWritable = false → off ≠ 0x000 →
      step s = .next ((s.setPending rest).answer h .written)) ∧
    (kind = .read → (off = 0x000 ∨ regAt off = .reserved) →
      step s = .next ((s.setPending rest).answer h (.readData 0x00000000)))

/-- The bits of STATUS as a host reads it are the fields of 10_state.md R24 and nothing else: bit 0, bits
2:1 and 7:4, and zeros in bit 3 and bits 31:8 (10_state.md section 3; log entries 1 and 2). -/
def Obligations.StatusReadShowsItsFields : Prop :=
  ∀ (s : State) (h : Nat) (rest : List BusEvent), s.pending = rd h 0x004 :: rest →
    ∃ v : Word, step s = .next ((s.setPending rest).answer h (.readData v)) ∧
      v.getLsbD 0 = s.ksValid ∧ v.extractLsb' 1 2 = s.ksSize ∧ v.getLsbD 3 = false ∧
      v.extractLsb' 4 4 = s.err ∧ v.extractLsb' 8 24 = 0

/-- A step serves exactly the oldest waiting event and answers at most once, behind the earlier answers; with
nothing waiting it changes nothing (20_memory.md section 5; log entries 1, 2 and 3). That a served reset
keeps the queue behind it and the answers before it is the model's choice (log entry 9). -/
def Obligations.StepServesTheOldestEvent : Prop :=
  ∀ s t : State, step s = .next t →
    t.pending = s.pending.tail ∧
    (s.pending = [] → t = s) ∧
    (∀ a rest, s.pending = .access a :: rest → ∃ d, t.answers = s.answers ++ [⟨a.host, d⟩]) ∧
    (∀ rest, s.pending = .reset :: rest → t.answers = s.answers)

/-- Whatever the order in which the hosts' accesses interleave, a queue without bus errors is served in one
step an access, and each is answered to its host, in arrival order: every host gets one answer for each
access of its own (20_memory.md section 5, 60_exceptions.md section 3; log entries 2 and 7). -/
def Obligations.EveryHostIsAnsweredInArrivalOrder : Prop :=
  ∀ (s : State) (perHost : Nat → List Access) (arrived : List Access), Interleaving perHost arrived →
    s.pending = arrived.map .access → (∀ a ∈ arrived, a.wellFormed = true) →
    ∃ t, Sys2Proof.core.run arrived.length s = .next t ∧ t.pending = [] ∧
      t.answers.map Answer.host = s.answers.map Answer.host ++ arrived.map Access.host ∧
      ∀ h, (t.answers.filter fun x => x.host = h).length =
        (s.answers.filter fun x => x.host = h).length + (perHost h).length

/-- Every host has the same rights: renaming the bus masters renames the answers and changes nothing else of
what a step does (60_exceptions.md R188 and R192; log entry 7). -/
def Obligations.EveryHostHasTheSameRights : Prop :=
  ∀ (f : Nat → Nat) (s : State),
    (∀ t, step s = .next t → step (s.relabel f) = .next (t.relabel f)) ∧
    (∀ r, step s = .fault r → step (s.relabel f) = .fault r)

/-! ### Reset -/

/-- 10_state.md R38: the value of every piece of state after reset, and what every register then reads. -/
def Obligations.ResetValues : Prop :=
  State.reset.ksValid = false ∧ State.reset.ksSize = 0b00 ∧ State.reset.err = 0 ∧
  readReg .cap State.reset = 0x0000000F ∧
  ∀ r : Reg, r ≠ .cap → readReg r State.reset = 0x00000000

/-- A served reset gives every register its reset value and nothing of an earlier command survives it: the
registers after `CMD` was written, with any word, and then reset are those of reset (70_reset_and_hazards.md
section 1). That the queue behind a reset and the answers before it stay is the model's choice (log
entry 9). -/
def Obligations.ResetLeavesNothingOfACommand : Prop :=
  ∀ (s : State) (rest : List BusEvent),
    (s.pending = .reset :: rest →
      step s = .next { State.reset with pending := rest, answers := s.answers }) ∧
    (∀ h c, s.pending = .access ⟨h, 0x000, 4, .write c⟩ :: .reset :: rest →
      ∃ t u, step s = .next t ∧ step t = .next u ∧ SameRegisters u State.reset ∧ u.pending = rest)

/-! ### Only these events -/

/-- `KS_VALID`, `KS_SIZE` and `RK` change over a step only where it serves a KEYSCHED command, which sets
`KS_VALID` and gives `KS_SIZE` the command's KSZ code, or a reset, which clears them (10_state.md R25, R26
and R34; what a step serves is the head of the model's queue, log entry 1). -/
def Obligations.ScheduleChangesOnlyByKeyschedOrReset : Prop :=
  ∀ s t : State, step s = .next t →
    (∀ i k, commandServed s = some (.command i) → i.keyschedSize = some k →
      t.ksValid = true ∧ t.ksSize = k.code) ∧
    (resetServed s = true → t.ksValid = false ∧ t.ksSize = 0b00 ∧ ∀ n : Fin 60, t.rk[n] = 0x00000000) ∧
    ((∀ i k, commandServed s = some (.command i) → i.keyschedSize ≠ some k) → resetServed s = false →
      t.ksValid = s.ksValid ∧ t.ksSize = s.ksSize ∧ t.rk = s.rk)

/-- ERR changes over a step only where it serves a write to CMD or a reset; a rejected word leaves its code,
an ENCRYPT 4 without a schedule, 5 on a schedule of another size and otherwise 0, every other command 0, and a
reset 0 (10_state.md R28, 60_exceptions.md R182, 43_round_function.md R164; log entry 1). -/
def Obligations.ErrIsTheLastCommandsResult : Prop :=
  ∀ s t : State, step s = .next t →
    (commandServed s = none → resetServed s = false → t.err = s.err) ∧
    (resetServed s = true → t.err = 0) ∧
    (∀ e, commandServed s = some (.reject e) → t.err = e.code) ∧
    (∀ k, commandServed s = some (.command (Instr.encrypt k)) →
      t.err = if s.ksValid = false then 4 else if s.ksSize ≠ k.code then 5 else 0) ∧
    (∀ i, commandServed s = some (.command i) → (∀ k, i ≠ Instr.encrypt k) → t.err = 0)

/-- `BLK_OUT` changes over a step only where it serves a successful ENCRYPT or a reset (10_state.md R32; log entry 1). -/
def Obligations.BlkOutChangesOnlyByEncryptOrReset : Prop :=
  ∀ s t : State, step s = .next t → t.blkOut ≠ s.blkOut →
    resetServed s = true ∨
    ∃ k, commandServed s = some (.command (Instr.encrypt k)) ∧ s.ksValid = true ∧ s.ksSize = k.code ∧
      t.err = 0

/-- `KEY` changes over a step only by a host's write to a KEY register, a KEYSCHED or a reset, and `P_ACC`
only by a host's write to it, ENCROUND, ENCROUNDLAST or a reset (10_state.md R29 and R33; log entry
1). -/
def Obligations.KeyAndAccumulatorChangeOnlyByTheirWriters : Prop :=
  ∀ s t : State, step s = .next t →
    (t.key ≠ s.key →
      resetServed s = true ∨ (∃ k v, WriteServed (.key k) v s) ∨
      ∃ k, commandServed s = some (.command (Instr.keysched k))) ∧
    (t.pAcc ≠ s.pAcc →
      resetServed s = true ∨ (∃ v, WriteServed .pAcc v s) ∨
      ∃ bs, commandServed s = some (.command (.encround bs)) ∨
        commandServed s = some (.command (.encroundlast bs)))

/-- No command ever writes `P_IN` or `BLK_IN`: they change over a step only by a host's write to them or a
reset (10_state.md R30 and R31; log entry 1). -/
def Obligations.InputRegistersChangeOnlyByTheHost : Prop :=
  ∀ s t : State, step s = .next t →
    (t.pIn ≠ s.pIn → resetServed s = true ∨ ∃ v, WriteServed .pIn v s) ∧
    (t.blkIn ≠ s.blkIn → resetServed s = true ∨ ∃ j v, WriteServed (.blkIn j) v s)

/-- The frame of every command: a register reads differently afterwards only if the command writes it by the
table of 30_encoding.md R83 (KEYSCHED: RK, KEY, STATUS; ENCRYPT: BLK_OUT, STATUS.ERR; ENCROUND and
ENCROUNDLAST: P_ACC, STATUS.ERR), and nothing on the bus changes. The block has no memory. -/
def Obligations.CommandsWriteOnlyTheirRegisters : Prop :=
  ∀ (i : Instr) (s t : State), exec i s = .next t →
    (∀ r, i.writes r = false → readReg r t = readReg r s) ∧
    (i.keyschedSize = none → t.ksValid = s.ksValid ∧ t.ksSize = s.ksSize) ∧
    t.pending = s.pending ∧ t.answers = s.answers

/-! ### The primitives -/

/-- ENCROUND completes in every state: byte `bs + r` (mod 4) of P_ACC is XORed with 2·s, s, s, 3·s for r = 0,
1, 2, 3, s the substituted byte `bs` of P_IN, ERR is 0, and nothing else changes (40_primitives.md
section 2). -/
def Obligations.EncroundAccumulatesAMixedColumn : Prop :=
  ∀ (bs : BitVec 2) (s : State), ∃ t,
    exec (.encround bs) s = .next { s with pAcc := t, err := 0 } ∧
    byteOf t bs = byteOf s.pAcc bs ^^^ xtime (sbox (byteOf s.pIn bs)) ∧
    byteOf t (bs + 1) = byteOf s.pAcc (bs + 1) ^^^ sbox (byteOf s.pIn bs) ∧
    byteOf t (bs + 2) = byteOf s.pAcc (bs + 2) ^^^ sbox (byteOf s.pIn bs) ∧
    byteOf t (bs + 3) = byteOf s.pAcc (bs + 3) ^^^ mul3 (sbox (byteOf s.pIn bs))

/-- ENCROUNDLAST completes in every state: byte `bs` of P_ACC is XORed with the substituted byte `bs` of P_IN,
the other three bytes are preserved exactly, ERR is 0, and nothing else changes (40_primitives.md
section 2). -/
def Obligations.EncroundlastAccumulatesOneByte : Prop :=
  ∀ (bs : BitVec 2) (s : State), ∃ t,
    exec (.encroundlast bs) s = .next { s with pAcc := t, err := 0 } ∧
    byteOf t bs = byteOf s.pAcc bs ^^^ sbox (byteOf s.pIn bs) ∧
    ∀ k, k ≠ bs → byteOf t k = byteOf s.pAcc k

/-- 40_primitives.md R108: linearity in the accumulator, order independence of any sequence of calls, lane
locality, and the relation of the two primitives. -/
def Obligations.PrimitiveLaws : Prop :=
  (∀ acc inp b, encRound acc inp b = acc ^^^ encRound 0 inp b ∧
    encRoundLast acc inp b = acc ^^^ encRoundLast 0 inp b) ∧
  (∀ (acc : Word) (calls : List PrimCall),
    calls.foldl PrimCall.run acc = acc ^^^ (calls.map (PrimCall.run 0)).foldr (· ^^^ ·) 0 ∧
    ∀ calls' : List PrimCall, calls.Perm calls' →
      calls.foldl PrimCall.run acc = calls'.foldl PrimCall.run acc) ∧
  (∀ inp b, (∀ k, k ≠ b → byteOf (encRoundLast 0 inp b) k = 0) ∧
    ∀ inp', byteOf inp b = byteOf inp' b → encRound 0 inp b = encRound 0 inp' b) ∧
  (∀ inp b, byteOf (encRound 0 inp b) (b + 1) = byteOf (encRoundLast 0 inp b) b)

/-- Issuing the same primitive command twice restores P_ACC (40_primitives.md R106, corner cases). -/
def Obligations.SamePrimitiveTwiceRestoresTheAccumulator : Prop :=
  ∀ (bs : BitVec 2) (s : State),
    (∃ t u, exec (.encround bs) s = .next t ∧ exec (.encround bs) t = .next u ∧ u.pAcc = s.pAcc) ∧
    (∃ t u, exec (.encroundlast bs) s = .next t ∧ exec (.encroundlast bs) t = .next u ∧ u.pAcc = s.pAcc)

/-- 40_primitives.md R100: the S-box is a bijection and equals its algebraic definition, the affine map of the
inverse in GF(2^8). It fixes all 256 entries of the table. -/
def Obligations.SboxIsTheAffineMapOfTheFieldInverse : Prop :=
  Function.Bijective sbox ∧ ∀ x : Byte, ∃ y, IsGfInverse x y ∧ sbox x = sboxAffine y

/-- `xtime` and `mul3` are multiplication by 2 and by 3 in GF(2^8), modulo x^8 + x^4 + x^3 + x + 1
(00_scope.md R12, 40_primitives.md R101). -/
def Obligations.XtimeAndMul3AreFieldProducts : Prop :=
  ∀ s : Byte, xtime s = gfMul 0x02 s ∧ mul3 s = gfMul 0x03 s

/-- A MixColumns column is the XOR of the contributions of its four bytes, and each contribution is the
MixColumns of a column with that byte alone (40_primitives.md R102). -/
def Obligations.MixColumnsIsTheSumOfContributions : Prop :=
  (∀ a0 a1 a2 a3 : Byte, mixColumn a0 a1 a2 a3 = mc a0 0 ^^^ mc a1 1 ^^^ mc a2 2 ^^^ mc a3 3) ∧
  ∀ s : Byte, mc s 0 = mixColumn s 0 0 0 ∧ mc s 1 = mixColumn 0 s 0 0 ∧ mc s 2 = mixColumn 0 0 s 0 ∧
    mc s 3 = mixColumn 0 0 0 s

/-! ### The key schedule -/

/-- The values of RCON and their recurrence (42_key_schedule.md R130). -/
def Obligations.RconValuesAndRecurrence : Prop :=
  (List.range 10).map rcon = [0x01, 0x02, 0x04, 0x08, 0x10, 0x20, 0x40, 0x80, 0x1b, 0x36] ∧
  ∀ i, i < 9 → rcon (i + 1) = xtime (rcon i)

/-- SubWord, four EncRoundLast calls, is the S-box on each byte of the word, and RotWord moves byte k+1 to
byte k and byte 0 to byte 3 (42_key_schedule.md R133 and R134). -/
def Obligations.SubWordAndRotWordByBytes : Prop :=
  ∀ w : Word, subWord w = wordOf (sbox (byteOf w 0)) (sbox (byteOf w 1)) (sbox (byteOf w 2)) (sbox (byteOf w 3)) ∧
    byteOf (rotWord w) 0 = byteOf w 1 ∧ byteOf (rotWord w) 1 = byteOf w 2 ∧
    byteOf (rotWord w) 2 = byteOf w 3 ∧ byteOf (rotWord w) 3 = byteOf w 0

/-- The first word's update is four EncRoundLast calls seeded with the first word and the constant, which
reaches byte 0 only (42_key_schedule.md R135). -/
def Obligations.FirstWordUpdateIsFourSeededCalls : Prop :=
  ∀ (i : Nat) (w0 last : Word),
    updateFirst i w0 last =
      encRoundLast (encRoundLast (encRoundLast (encRoundLast (w0 ^^^ (rcon i).setWidth 32) (rotWord last) 0)
        (rotWord last) 1) (rotWord last) 2) (rotWord last) 3 ∧
    ∀ k : BitVec 2, k ≠ 0 → byteOf (updateFirst i w0 last) k = byteOf w0 k ^^^ byteOf (subWord (rotWord last)) k

/-- 42_key_schedule.md R142: `KeyExpand`, the loop over live words, gives `4(Nr+1)` words that satisfy the
flat recurrence. -/
def Obligations.KeyExpandIsTheFlatRecurrence : Prop :=
  ∀ (k : KeySize) (key : List Word), key.length = k.nk →
    (keyExpand k key).length = k.scheduleWords ∧
    FlatSchedule k (fun n => key.getD n 0) (fun n => (keyExpand k key).getD n 0)

/-- The expansion loop leaves by its exit after exactly STEPS update steps: it emits Nk·(STEPS+1) words, 44, 54
or 64, and further iterations would not change what it emits (42_key_schedule.md R132 and R137). -/
def Obligations.ExpansionStopsAfterStepsUpdates : Prop :=
  ∀ (k : KeySize) (key : List Word), key.length = k.nk →
    (expandLoop k.nk k.scheduleWords (k.steps + 1) 0 key []).length =
      (match k with | .k128 => 44 | .k192 => 54 | .k256 => 64) ∧
    (expandLoop k.nk k.scheduleWords k.steps 0 key []).length < k.scheduleWords ∧
    ∀ more, expandLoop k.nk k.scheduleWords (k.steps + 1 + more) 0 key [] =
      expandLoop k.nk k.scheduleWords (k.steps + 1) 0 key []

/-- 42_key_schedule.md R138: the three KEYSCHED commands complete in every state; RK is the schedule of the
key words with zeros behind it, KEY is zero, KS_VALID 1, KS_SIZE the command's code, ERR 0, and nothing else
changes. -/
def Obligations.KeyschedEffect : Prop :=
  ∀ s : State, ∀ p ∈ [(Instr.keysched128, KeySize.k128), (Instr.keysched192, KeySize.k192),
      (Instr.keysched256, KeySize.k256)],
    ∃ rk : Vector Word 60,
      exec p.1 s = .next { s with rk := rk, key := Vector.replicate 8 0x00000000, ksValid := true,
                                  ksSize := p.2.code, err := 0 } ∧
      ∀ n : Fin 60, rk[n] =
        if n.val < 4 * (p.2.nr + 1) then (keyExpand p.2 (s.key.toList.take p.2.nk)).getD n.val 0
        else 0x00000000

/-- After KEYSCHED the words of RK satisfy the flat recurrence from the KEY words the command read, RoundKey 0
being the first four of them (42_key_schedule.md sections 2 and 3). -/
def Obligations.KeyschedLeavesTheFlatSchedule : Prop :=
  ∀ (k : KeySize) (s : State), ∃ t, exec (Instr.keysched k) s = .next t ∧
    FlatSchedule k (fun n => s.key[n]?.getD 0) (fun n => t.rk[n]?.getD 0) ∧
    ∀ n : Fin 60, k.scheduleWords ≤ n.val → t.rk[n] = 0

/-- KEYSCHED reads `KEY[0..Nk-1]` and nothing else: two states that agree on those words get the same RK,
whatever the rest of KEY and every other register hold (10_state.md R33, 42_key_schedule.md R142). -/
def Obligations.KeyschedReadsOnlyItsKeyWords : Prop :=
  ∀ (k : KeySize) (s s' t t' : State), (∀ n, n < k.nk → s.key[n]? = s'.key[n]?) →
    exec (Instr.keysched k) s = .next t → exec (Instr.keysched k) s' = .next t' → t.rk = t'.rk

/-- KEY is consumed: a second KEYSCHED without a new key expands the all-zero key (70_reset_and_hazards.md
R216, item 1). -/
def Obligations.SecondKeyschedExpandsTheZeroKey : Prop :=
  ∀ (k k' : KeySize) (s : State), ∃ t u, exec (Instr.keysched k) s = .next t ∧
    exec (Instr.keysched k') t = .next u ∧ FlatSchedule k' (fun _ => 0) (fun n => u.rk[n]?.getD 0)

/-! ### Encryption -/

/-- 43_round_function.md R164: the two checks of ENCRYPT in their order, and its effect, for its three
forms: error 4 without a schedule, error 5 on another size, and otherwise BLK_OUT from BLK_IN and the round
keys; nothing else changes. -/
def Obligations.EncryptChecksThenEncrypts : Prop :=
  ∀ s : State, ∀ p ∈ [(Instr.encrypt128, KeySize.k128), (Instr.encrypt192, KeySize.k192),
      (Instr.encrypt256, KeySize.k256)],
    (s.ksValid = false → exec p.1 s = .next { s with err := 4 }) ∧
    (s.ksValid = true → s.ksSize ≠ p.2.code → exec p.1 s = .next { s with err := 5 }) ∧
    (s.ksValid = true → s.ksSize = p.2.code →
      exec p.1 s = .next { s with blkOut := encrypt p.2 (roundKey s.rk) s.blkIn, err := 0 })

/-- With a schedule of its size in RK, ENCRYPT128, ENCRYPT192 and ENCRYPT256 complete with BLK_OUT the AES
cipher of BLK_IN, built from SubBytes, ShiftRows, MixColumns and AddRoundKey, ERR 0, and nothing else
changed (43_round_function.md sections 1 and 2). -/
def Obligations.EncryptIsTheAesCipher : Prop :=
  ∀ s : State, s.ksValid = true →
    (s.ksSize = 0b00 → exec .encrypt128 s =
      .next { s with blkOut := aesCipher .k128 (roundKey s.rk) s.blkIn, err := 0 }) ∧
    (s.ksSize = 0b01 → exec .encrypt192 s =
      .next { s with blkOut := aesCipher .k192 (roundKey s.rk) s.blkIn, err := 0 }) ∧
    (s.ksSize = 0b10 → exec .encrypt256 s =
      .next { s with blkOut := aesCipher .k256 (roundKey s.rk) s.blkIn, err := 0 })

/-- A main round is AddRoundKey of MixColumns of ShiftRows of SubBytes, and the final round the same without
MixColumns (43_round_function.md R162 and R163). -/
def Obligations.RoundsAreTheFourAesSteps : Prop :=
  ∀ rk s : Block, mainRound rk s = aesMainRound rk s ∧ finalRound rk s = aesFinalRound rk s

/-- ENCRYPT reads BLK_IN, `RK[0..4Nr+3]`, KS_VALID and KS_SIZE and nothing else: two states that agree on
those get the same ERR, and the same BLK_OUT where they succeed (30_encoding.md R83). -/
def Obligations.EncryptReadsOnlyItsOperands : Prop :=
  ∀ (k : KeySize) (s s' t t' : State), s.blkIn = s'.blkIn → s.ksValid = s'.ksValid →
    s.ksSize = s'.ksSize → (∀ n, n < 4 * k.nr + 4 → s.rk[n]? = s'.rk[n]?) →
    exec (Instr.encrypt k) s = .next t → exec (Instr.encrypt k) s' = .next t' →
    t.err = t'.err ∧ (t.err = 0 → t.blkOut = t'.blkOut)

/-- An ENCRYPT may be repeated on one schedule: the second one changes nothing (43_round_function.md
section 2). -/
def Obligations.RepeatedEncryptChangesNothing : Prop :=
  ∀ (k : KeySize) (s t : State), exec (Instr.encrypt k) s = .next t → exec (Instr.encrypt k) t = .next t

/-- The headline: KEYSCHED and then ENCRYPT of the same size, from any state, end with ERR 0 and BLK_OUT the AES
cipher of BLK_IN under a schedule that satisfies the flat recurrence from the key words
(42_key_schedule.md sections 2 and 3, 43_round_function.md sections 1 and 2). -/
def Obligations.KeyschedThenEncryptIsAes : Prop :=
  ∀ (k : KeySize) (s : State), ∃ (t u : State) (w : Nat → Word),
    exec (Instr.keysched k) s = .next t ∧ exec (Instr.encrypt k) t = .next u ∧
    FlatSchedule k (fun n => s.key[n]?.getD 0) w ∧
    u.blkOut = aesCipher k (fun r => #v[w (4 * r), w (4 * r + 1), w (4 * r + 2), w (4 * r + 3)]) s.blkIn ∧
    u.err = 0 ∧ u.blkIn = s.blkIn

/-! ### Invariants -/

/-- The state after reset has the invariant of 10_state.md R37, no key having been read. -/
def Obligations.ResetHasTheInvariant : Prop := Inv State.reset ∧ InvFor none State.reset

/-- Every step keeps the invariant of 10_state.md R37, from every state that has it, reached or not: with the
key of item 2 being some key, and with it being the key `g` of the last successful KEYSCHED, which the step
replaces where it serves a KEYSCHED and forgets where it serves a reset. An event that reaches the block
keeps it too. The queue and the reset event in it are the model's own (log entries 1 and 9). -/
def Obligations.EveryStepKeepsTheInvariant : Prop :=
  (∀ s t : State, Inv s → step s = .next t → Inv t) ∧
  (∀ g (s t : State), InvFor g s → step s = .next t → InvFor (lastKeyAfter g s) t) ∧
  ∀ g (s : State) (e : BusEvent), InvFor g s → InvFor g (s.receive e)

/-- 10_state.md R37: in every state reachable from reset, whatever accesses and resets reach the block, the
five items hold, item 2 with the key the last successful KEYSCHED read. -/
def Obligations.ReachableStatesHaveTheInvariant : Prop :=
  ∀ g s, Reachable g s → InvFor g s

/-! ### The codec and the pseudo-instructions -/

/-- 41_codec.md R122: both round trips of the codec. -/
def Obligations.CodecRoundTrips : Prop :=
  (∀ b : List Byte, b.length = 16 → wordsToBytes (bytesToWords b) = b) ∧
  (∀ w : List Word, w.length = 4 → bytesToWords (wordsToBytes w) = w)

/-- 41_codec.md R120 and R121: byte `i` goes to word `i div 4`, byte position `i mod 4`, and back, for arrays
of `4k` bytes. -/
def Obligations.CodecPlacesEachByte : Prop :=
  (∀ (n : Nat) (b : List Byte), b.length = 4 * n → (bytesToWords b).length = n ∧
    ∀ i, i < 4 * n →
      b[i]? = ((bytesToWords b)[i / 4]?).map fun w => byteOf w (BitVec.ofNat 2 (i % 4))) ∧
  (∀ w : List Word, w.length = 4 → (wordsToBytes w).length = 16 ∧
    ∀ i, i < 16 → (wordsToBytes w)[i]? = (w[i / 4]?).map fun x => byteOf x (BitVec.ofNat 2 (i % 4)))

/-- LDKEY places the codec's words of the key in `KEY[0..Nk-1]` and leaves the other KEY words
(41_codec.md R123; 30_encoding.md R88; log entry 1). -/
def Obligations.LdkeyPlacesTheKeyWords : Prop :=
  ∀ (k : KeySize) (h : Nat) (key : List Byte) (s : State), key.length = 4 * k.nk →
    s.pending = ldkey h key →
    ∃ t, Sys2Proof.core.run k.nk s = .next t ∧ keyMaterial k t = bytesToWords key ∧
      ∀ n, k.nk ≤ n → t.key[n]? = s.key[n]?

/-- LDBLK places the codec's words of the block in BLK_IN, and RDBLK is answered with the four words of
BLK_OUT (41_codec.md R124; 30_encoding.md R88; log entries 1 and 2). -/
def Obligations.LdblkAndRdblkMoveBlocks : Prop :=
  ∀ (h : Nat) (s : State),
    (∀ b : List Byte, b.length = 16 → s.pending = ldblk h b →
      ∃ t, Sys2Proof.core.run 4 s = .next t ∧ t.blkIn.toList = bytesToWords b) ∧
    (s.pending = rdblk h → ∃ t, Sys2Proof.core.run 4 s = .next t ∧
      t.answers = s.answers ++ s.blkOut.toList.map fun w => ⟨h, .readData w⟩)

/-- SUBWORD leaves SubWord of its word in P_ACC, and MIXCOL one main-round output word: AddRoundKey of
MixColumns of the substituted diagonal (30_encoding.md R88; log entry 1). -/
def Obligations.SubwordAndMixcolCompute : Prop :=
  ∀ (h : Nat) (s : State),
    (∀ w, s.pending = subword h w → ∃ t, Sys2Proof.core.run 6 s = .next t ∧ t.pAcc = subBytesWord w) ∧
    (∀ acc w0 w1 w2 w3, s.pending = mixcol h acc w0 w1 w2 w3 →
      ∃ t, Sys2Proof.core.run 9 s = .next t ∧
        t.pAcc = mixColumnWord (subBytesWord (diagonal w0 w1 w2 w3)) ^^^ acc)
end

