-- ==== Sys2Proof/Laws/Bits.lean ====
section
/-! SUPPORT. What the word and byte operators of 00_scope.md R10 do. -/

namespace Sys2Proof.Laws

open Sys2Proof.Machine

/-- Every value of a byte selector. -/
theorem selector_cases (P : BitVec 2 → Prop) (h0 : P 0#2) (h1 : P 1#2) (h2 : P 2#2) (h3 : P 3#2) :
    ∀ b, P b := by
  intro b
  have hb := b.isLt
  have : b = 0#2 ∨ b = 1#2 ∨ b = 2#2 ∨ b = 3#2 := by bv_omega
  rcases this with rfl | rfl | rfl | rfl <;> assumption

/-- A word put together from bytes, bit by bit. -/
theorem wordOf_getLsbD (b0 b1 b2 b3 : Byte) (i : Nat) :
    (wordOf b0 b1 b2 b3).getLsbD i =
      if i < 8 then b0.getLsbD i else if i < 16 then b1.getLsbD (i - 8)
      else if i < 24 then b2.getLsbD (i - 16) else b3.getLsbD (i - 24) := by
  rw [wordOf, BitVec.getLsbD_append, BitVec.getLsbD_append, BitVec.getLsbD_append]
  rw [show i - 8 - 8 = i - 16 by omega, show i - 16 - 8 = i - 24 by omega]
  by_cases h1 : i < 8
  · simp [h1]
  · by_cases h2 : i < 16
    · simp [h1, h2, show i - 8 < 8 by omega]
    · by_cases h3 : i < 24
      · simp [h1, h2, h3, show ¬ i - 8 < 8 by omega, show i - 16 < 8 by omega]
      · simp [h1, h2, h3, show ¬ i - 8 < 8 by omega, show ¬ i - 16 < 8 by omega]

/-- Byte position `k` of a word, bit by bit. -/
theorem byteOf_getLsbD (w : Word) (k : BitVec 2) (i : Nat) :
    (byteOf w k).getLsbD i = (decide (i < 8) && w.getLsbD (8 * k.toNat + i)) := by
  simp [byteOf]

/-- Byte position `k` of a word, bit by bit below 8. -/
@[simp] theorem byteOf_getElem (w : Word) (k : BitVec 2) (i : Nat) (hi : i < 8) :
    (byteOf w k)[i] = w.getLsbD (8 * k.toNat + i) := by
  simp [byteOf]

@[simp] theorem byteOf_wordOf_0 (b0 b1 b2 b3 : Byte) : byteOf (wordOf b0 b1 b2 b3) 0#2 = b0 := by
  ext i hi; simp [wordOf_getLsbD, hi]

@[simp] theorem byteOf_wordOf_1 (b0 b1 b2 b3 : Byte) : byteOf (wordOf b0 b1 b2 b3) 1#2 = b1 := by
  ext i hi; simp [wordOf_getLsbD, hi, show 8 + i < 16 by omega]

@[simp] theorem byteOf_wordOf_2 (b0 b1 b2 b3 : Byte) : byteOf (wordOf b0 b1 b2 b3) 2#2 = b2 := by
  ext i hi
  simp [wordOf_getLsbD, hi, show ¬ 16 + i < 8 by omega, show 16 + i < 24 by omega]

@[simp] theorem byteOf_wordOf_3 (b0 b1 b2 b3 : Byte) : byteOf (wordOf b0 b1 b2 b3) 3#2 = b3 := by
  ext i hi
  simp [wordOf_getLsbD, hi, show ¬ 24 + i < 8 by omega, show ¬ 24 + i < 16 by omega]

/-! The same lemmas with the selector as a numeral, for goals not yet in simp normal form. -/

@[simp] theorem byteOf_wordOf_zero (b0 b1 b2 b3 : Byte) :
    byteOf (wordOf b0 b1 b2 b3) 0 = b0 := byteOf_wordOf_0 b0 b1 b2 b3

@[simp] theorem byteOf_wordOf_one (b0 b1 b2 b3 : Byte) :
    byteOf (wordOf b0 b1 b2 b3) 1 = b1 := byteOf_wordOf_1 b0 b1 b2 b3

@[simp] theorem byteOf_wordOf_two (b0 b1 b2 b3 : Byte) :
    byteOf (wordOf b0 b1 b2 b3) 2 = b2 := byteOf_wordOf_2 b0 b1 b2 b3

@[simp] theorem byteOf_wordOf_three (b0 b1 b2 b3 : Byte) :
    byteOf (wordOf b0 b1 b2 b3) 3 = b3 := byteOf_wordOf_3 b0 b1 b2 b3

/-- A word is put together from its four bytes. -/
@[simp] theorem wordOf_byteOf (w : Word) :
    wordOf (byteOf w 0#2) (byteOf w 1#2) (byteOf w 2#2) (byteOf w 3#2) = w := by
  apply BitVec.eq_of_getLsbD_eq; intro i hi
  simp only [wordOf_getLsbD, byteOf_getLsbD]
  split
  · simp [*]
  · split
    · simp [show i - 8 < 8 by omega, show 8 + (i - 8) = i by omega]
    · split
      · simp [show i - 16 < 8 by omega, show 16 + (i - 16) = i by omega]
      · simp [show i - 24 < 8 by omega, show 24 + (i - 24) = i by omega]

/-- Two words with equal bytes are equal. -/
theorem word_ext {v w : Word} (h : ∀ k, byteOf v k = byteOf w k) : v = w := by
  rw [← wordOf_byteOf v, ← wordOf_byteOf w, h 0#2, h 1#2, h 2#2, h 3#2]

@[simp] theorem byteOf_xor (v w : Word) (k : BitVec 2) :
    byteOf (v ^^^ w) k = byteOf v k ^^^ byteOf w k := by
  ext i hi; simp

@[simp] theorem byteOf_zero (k : BitVec 2) : byteOf 0#32 k = 0#8 := by revert k; decide

/-- Rotating left by `8 n` moves byte `k` to byte `k + n`. -/
theorem byteOf_rotl32 (w : Word) (n k : BitVec 2) :
    byteOf (rotl32 w (8 * n.toNat)) (k + n) = byteOf w k := by
  have hn := n.isLt
  have hk := k.isLt
  ext i hi
  simp only [byteOf_getElem, rotl32, BitVec.getLsbD_rotateLeft, BitVec.toNat_add]
  rw [Nat.mod_eq_of_lt (show 8 * n.toNat < 32 by omega)]
  by_cases h : k.toNat + n.toNat < 4
  · rw [Nat.mod_eq_of_lt h, decide_eq_false (by omega), decide_eq_true (by omega)]
    rw [show 8 * (k.toNat + n.toNat) + i - 8 * n.toNat = 8 * k.toNat + i by omega]
    rfl
  · rw [show (k.toNat + n.toNat) % 2 ^ 2 = k.toNat + n.toNat - 4 by omega, decide_eq_true (by omega)]
    rw [show 32 - 8 * n.toNat + (8 * (k.toNat + n.toNat - 4) + i) = 8 * k.toNat + i by omega]
    rfl

@[simp] theorem byteOf_setWidth (b : Byte) (k : BitVec 2) :
    byteOf (b.setWidth 32) k = if k = 0#2 then b else 0#8 := by
  revert k
  refine selector_cases _ ?_ ?_ ?_ ?_
  all_goals ext i hi
  all_goals simp [hi]
  all_goals intro _
  all_goals first | omega | (apply BitVec.getLsbD_of_ge; omega)

end Sys2Proof.Laws
end

