-- ==== Sys2Proof/Laws/State.lean ====
section
/-! SUPPORT. One lemma per field of State per update of it, so that no later proof unfolds a record
update; and what each register reads at reset. -/

namespace Sys2Proof.Laws

open Sys2Proof.Machine

variable (s : State)

/-! ### State.setErr -/

@[simp] theorem setErr_ksValid (v : BitVec 4) : (s.setErr v).ksValid = s.ksValid := rfl

@[simp] theorem setErr_ksSize (v : BitVec 4) : (s.setErr v).ksSize = s.ksSize := rfl

@[simp] theorem setErr_err (v : BitVec 4) : (s.setErr v).err = v := rfl

@[simp] theorem setErr_pAcc (v : BitVec 4) : (s.setErr v).pAcc = s.pAcc := rfl

@[simp] theorem setErr_pIn (v : BitVec 4) : (s.setErr v).pIn = s.pIn := rfl

@[simp] theorem setErr_blkIn (v : BitVec 4) : (s.setErr v).blkIn = s.blkIn := rfl

@[simp] theorem setErr_blkOut (v : BitVec 4) : (s.setErr v).blkOut = s.blkOut := rfl

@[simp] theorem setErr_key (v : BitVec 4) : (s.setErr v).key = s.key := rfl

@[simp] theorem setErr_rk (v : BitVec 4) : (s.setErr v).rk = s.rk := rfl

@[simp] theorem setErr_pending (v : BitVec 4) : (s.setErr v).pending = s.pending := rfl

@[simp] theorem setErr_answers (v : BitVec 4) : (s.setErr v).answers = s.answers := rfl

/-! ### State.setSchedule -/

@[simp] theorem setSchedule_ksValid (z : BitVec 2) : (s.setSchedule z).ksValid = true := rfl

@[simp] theorem setSchedule_ksSize (z : BitVec 2) : (s.setSchedule z).ksSize = z := rfl

@[simp] theorem setSchedule_err (z : BitVec 2) : (s.setSchedule z).err = s.err := rfl

@[simp] theorem setSchedule_pAcc (z : BitVec 2) : (s.setSchedule z).pAcc = s.pAcc := rfl

@[simp] theorem setSchedule_pIn (z : BitVec 2) : (s.setSchedule z).pIn = s.pIn := rfl

@[simp] theorem setSchedule_blkIn (z : BitVec 2) : (s.setSchedule z).blkIn = s.blkIn := rfl

@[simp] theorem setSchedule_blkOut (z : BitVec 2) : (s.setSchedule z).blkOut = s.blkOut := rfl

@[simp] theorem setSchedule_key (z : BitVec 2) : (s.setSchedule z).key = s.key := rfl

@[simp] theorem setSchedule_rk (z : BitVec 2) : (s.setSchedule z).rk = s.rk := rfl

@[simp] theorem setSchedule_pending (z : BitVec 2) : (s.setSchedule z).pending = s.pending := rfl

@[simp] theorem setSchedule_answers (z : BitVec 2) : (s.setSchedule z).answers = s.answers := rfl

/-! ### State.setPAcc -/

@[simp] theorem setPAcc_ksValid (v : Word) : (s.setPAcc v).ksValid = s.ksValid := rfl

@[simp] theorem setPAcc_ksSize (v : Word) : (s.setPAcc v).ksSize = s.ksSize := rfl

@[simp] theorem setPAcc_err (v : Word) : (s.setPAcc v).err = s.err := rfl

@[simp] theorem setPAcc_pAcc (v : Word) : (s.setPAcc v).pAcc = v := rfl

@[simp] theorem setPAcc_pIn (v : Word) : (s.setPAcc v).pIn = s.pIn := rfl

@[simp] theorem setPAcc_blkIn (v : Word) : (s.setPAcc v).blkIn = s.blkIn := rfl

@[simp] theorem setPAcc_blkOut (v : Word) : (s.setPAcc v).blkOut = s.blkOut := rfl

@[simp] theorem setPAcc_key (v : Word) : (s.setPAcc v).key = s.key := rfl

@[simp] theorem setPAcc_rk (v : Word) : (s.setPAcc v).rk = s.rk := rfl

@[simp] theorem setPAcc_pending (v : Word) : (s.setPAcc v).pending = s.pending := rfl

@[simp] theorem setPAcc_answers (v : Word) : (s.setPAcc v).answers = s.answers := rfl

/-! ### State.setPIn -/

@[simp] theorem setPIn_ksValid (v : Word) : (s.setPIn v).ksValid = s.ksValid := rfl

@[simp] theorem setPIn_ksSize (v : Word) : (s.setPIn v).ksSize = s.ksSize := rfl

@[simp] theorem setPIn_err (v : Word) : (s.setPIn v).err = s.err := rfl

@[simp] theorem setPIn_pAcc (v : Word) : (s.setPIn v).pAcc = s.pAcc := rfl

@[simp] theorem setPIn_pIn (v : Word) : (s.setPIn v).pIn = v := rfl

@[simp] theorem setPIn_blkIn (v : Word) : (s.setPIn v).blkIn = s.blkIn := rfl

@[simp] theorem setPIn_blkOut (v : Word) : (s.setPIn v).blkOut = s.blkOut := rfl

@[simp] theorem setPIn_key (v : Word) : (s.setPIn v).key = s.key := rfl

@[simp] theorem setPIn_rk (v : Word) : (s.setPIn v).rk = s.rk := rfl

@[simp] theorem setPIn_pending (v : Word) : (s.setPIn v).pending = s.pending := rfl

@[simp] theorem setPIn_answers (v : Word) : (s.setPIn v).answers = s.answers := rfl

/-! ### State.setBlkIn -/

@[simp] theorem setBlkIn_ksValid (j : Fin 4) (v : Word) :
    (s.setBlkIn j v).ksValid = s.ksValid := rfl

@[simp] theorem setBlkIn_ksSize (j : Fin 4) (v : Word) : (s.setBlkIn j v).ksSize = s.ksSize := rfl

@[simp] theorem setBlkIn_err (j : Fin 4) (v : Word) : (s.setBlkIn j v).err = s.err := rfl

@[simp] theorem setBlkIn_pAcc (j : Fin 4) (v : Word) : (s.setBlkIn j v).pAcc = s.pAcc := rfl

@[simp] theorem setBlkIn_pIn (j : Fin 4) (v : Word) : (s.setBlkIn j v).pIn = s.pIn := rfl

@[simp] theorem setBlkIn_blkIn (j : Fin 4) (v : Word) :
    (s.setBlkIn j v).blkIn = s.blkIn.set j.val v j.isLt := rfl

@[simp] theorem setBlkIn_blkOut (j : Fin 4) (v : Word) : (s.setBlkIn j v).blkOut = s.blkOut := rfl

@[simp] theorem setBlkIn_key (j : Fin 4) (v : Word) : (s.setBlkIn j v).key = s.key := rfl

@[simp] theorem setBlkIn_rk (j : Fin 4) (v : Word) : (s.setBlkIn j v).rk = s.rk := rfl

@[simp] theorem setBlkIn_pending (j : Fin 4) (v : Word) :
    (s.setBlkIn j v).pending = s.pending := rfl

@[simp] theorem setBlkIn_answers (j : Fin 4) (v : Word) :
    (s.setBlkIn j v).answers = s.answers := rfl

/-! ### State.setKey -/

@[simp] theorem setKey_ksValid (k : Fin 8) (v : Word) : (s.setKey k v).ksValid = s.ksValid := rfl

@[simp] theorem setKey_ksSize (k : Fin 8) (v : Word) : (s.setKey k v).ksSize = s.ksSize := rfl

@[simp] theorem setKey_err (k : Fin 8) (v : Word) : (s.setKey k v).err = s.err := rfl

@[simp] theorem setKey_pAcc (k : Fin 8) (v : Word) : (s.setKey k v).pAcc = s.pAcc := rfl

@[simp] theorem setKey_pIn (k : Fin 8) (v : Word) : (s.setKey k v).pIn = s.pIn := rfl

@[simp] theorem setKey_blkIn (k : Fin 8) (v : Word) : (s.setKey k v).blkIn = s.blkIn := rfl

@[simp] theorem setKey_blkOut (k : Fin 8) (v : Word) : (s.setKey k v).blkOut = s.blkOut := rfl

@[simp] theorem setKey_key (k : Fin 8) (v : Word) :
    (s.setKey k v).key = s.key.set k.val v k.isLt := rfl

@[simp] theorem setKey_rk (k : Fin 8) (v : Word) : (s.setKey k v).rk = s.rk := rfl

@[simp] theorem setKey_pending (k : Fin 8) (v : Word) : (s.setKey k v).pending = s.pending := rfl

@[simp] theorem setKey_answers (k : Fin 8) (v : Word) : (s.setKey k v).answers = s.answers := rfl

/-! ### State.setBlkOut -/

@[simp] theorem setBlkOut_ksValid (c : Block) : (s.setBlkOut c).ksValid = s.ksValid := rfl

@[simp] theorem setBlkOut_ksSize (c : Block) : (s.setBlkOut c).ksSize = s.ksSize := rfl

@[simp] theorem setBlkOut_err (c : Block) : (s.setBlkOut c).err = s.err := rfl

@[simp] theorem setBlkOut_pAcc (c : Block) : (s.setBlkOut c).pAcc = s.pAcc := rfl

@[simp] theorem setBlkOut_pIn (c : Block) : (s.setBlkOut c).pIn = s.pIn := rfl

@[simp] theorem setBlkOut_blkIn (c : Block) : (s.setBlkOut c).blkIn = s.blkIn := rfl

@[simp] theorem setBlkOut_blkOut (c : Block) : (s.setBlkOut c).blkOut = c := rfl

@[simp] theorem setBlkOut_key (c : Block) : (s.setBlkOut c).key = s.key := rfl

@[simp] theorem setBlkOut_rk (c : Block) : (s.setBlkOut c).rk = s.rk := rfl

@[simp] theorem setBlkOut_pending (c : Block) : (s.setBlkOut c).pending = s.pending := rfl

@[simp] theorem setBlkOut_answers (c : Block) : (s.setBlkOut c).answers = s.answers := rfl

/-! ### State.setRk -/

@[simp] theorem setRk_ksValid (v : Vector Word 60) : (s.setRk v).ksValid = s.ksValid := rfl

@[simp] theorem setRk_ksSize (v : Vector Word 60) : (s.setRk v).ksSize = s.ksSize := rfl

@[simp] theorem setRk_err (v : Vector Word 60) : (s.setRk v).err = s.err := rfl

@[simp] theorem setRk_pAcc (v : Vector Word 60) : (s.setRk v).pAcc = s.pAcc := rfl

@[simp] theorem setRk_pIn (v : Vector Word 60) : (s.setRk v).pIn = s.pIn := rfl

@[simp] theorem setRk_blkIn (v : Vector Word 60) : (s.setRk v).blkIn = s.blkIn := rfl

@[simp] theorem setRk_blkOut (v : Vector Word 60) : (s.setRk v).blkOut = s.blkOut := rfl

@[simp] theorem setRk_key (v : Vector Word 60) : (s.setRk v).key = s.key := rfl

@[simp] theorem setRk_rk (v : Vector Word 60) : (s.setRk v).rk = v := rfl

@[simp] theorem setRk_pending (v : Vector Word 60) : (s.setRk v).pending = s.pending := rfl

@[simp] theorem setRk_answers (v : Vector Word 60) : (s.setRk v).answers = s.answers := rfl

/-! ### State.clearKey -/

@[simp] theorem clearKey_ksValid : (s.clearKey).ksValid = s.ksValid := rfl

@[simp] theorem clearKey_ksSize : (s.clearKey).ksSize = s.ksSize := rfl

@[simp] theorem clearKey_err : (s.clearKey).err = s.err := rfl

@[simp] theorem clearKey_pAcc : (s.clearKey).pAcc = s.pAcc := rfl

@[simp] theorem clearKey_pIn : (s.clearKey).pIn = s.pIn := rfl

@[simp] theorem clearKey_blkIn : (s.clearKey).blkIn = s.blkIn := rfl

@[simp] theorem clearKey_blkOut : (s.clearKey).blkOut = s.blkOut := rfl

@[simp] theorem clearKey_key : (s.clearKey).key = Vector.replicate 8 0x00000000 := rfl

@[simp] theorem clearKey_rk : (s.clearKey).rk = s.rk := rfl

@[simp] theorem clearKey_pending : (s.clearKey).pending = s.pending := rfl

@[simp] theorem clearKey_answers : (s.clearKey).answers = s.answers := rfl

/-! ### State.setPending -/

@[simp] theorem setPending_ksValid (q : List BusEvent) : (s.setPending q).ksValid = s.ksValid := rfl

@[simp] theorem setPending_ksSize (q : List BusEvent) : (s.setPending q).ksSize = s.ksSize := rfl

@[simp] theorem setPending_err (q : List BusEvent) : (s.setPending q).err = s.err := rfl

@[simp] theorem setPending_pAcc (q : List BusEvent) : (s.setPending q).pAcc = s.pAcc := rfl

@[simp] theorem setPending_pIn (q : List BusEvent) : (s.setPending q).pIn = s.pIn := rfl

@[simp] theorem setPending_blkIn (q : List BusEvent) : (s.setPending q).blkIn = s.blkIn := rfl

@[simp] theorem setPending_blkOut (q : List BusEvent) : (s.setPending q).blkOut = s.blkOut := rfl

@[simp] theorem setPending_key (q : List BusEvent) : (s.setPending q).key = s.key := rfl

@[simp] theorem setPending_rk (q : List BusEvent) : (s.setPending q).rk = s.rk := rfl

@[simp] theorem setPending_pending (q : List BusEvent) : (s.setPending q).pending = q := rfl

@[simp] theorem setPending_answers (q : List BusEvent) : (s.setPending q).answers = s.answers := rfl

/-! ### State.receive -/

@[simp] theorem receive_ksValid (e : BusEvent) : (s.receive e).ksValid = s.ksValid := rfl

@[simp] theorem receive_ksSize (e : BusEvent) : (s.receive e).ksSize = s.ksSize := rfl

@[simp] theorem receive_err (e : BusEvent) : (s.receive e).err = s.err := rfl

@[simp] theorem receive_pAcc (e : BusEvent) : (s.receive e).pAcc = s.pAcc := rfl

@[simp] theorem receive_pIn (e : BusEvent) : (s.receive e).pIn = s.pIn := rfl

@[simp] theorem receive_blkIn (e : BusEvent) : (s.receive e).blkIn = s.blkIn := rfl

@[simp] theorem receive_blkOut (e : BusEvent) : (s.receive e).blkOut = s.blkOut := rfl

@[simp] theorem receive_key (e : BusEvent) : (s.receive e).key = s.key := rfl

@[simp] theorem receive_rk (e : BusEvent) : (s.receive e).rk = s.rk := rfl

@[simp] theorem receive_pending (e : BusEvent) : (s.receive e).pending = s.pending ++ [e] := rfl

@[simp] theorem receive_answers (e : BusEvent) : (s.receive e).answers = s.answers := rfl

/-! ### State.answer -/

@[simp] theorem answer_ksValid (h : Nat) (d : AnswerData) :
    (s.answer h d).ksValid = s.ksValid := rfl

@[simp] theorem answer_ksSize (h : Nat) (d : AnswerData) : (s.answer h d).ksSize = s.ksSize := rfl

@[simp] theorem answer_err (h : Nat) (d : AnswerData) : (s.answer h d).err = s.err := rfl

@[simp] theorem answer_pAcc (h : Nat) (d : AnswerData) : (s.answer h d).pAcc = s.pAcc := rfl

@[simp] theorem answer_pIn (h : Nat) (d : AnswerData) : (s.answer h d).pIn = s.pIn := rfl

@[simp] theorem answer_blkIn (h : Nat) (d : AnswerData) : (s.answer h d).blkIn = s.blkIn := rfl

@[simp] theorem answer_blkOut (h : Nat) (d : AnswerData) : (s.answer h d).blkOut = s.blkOut := rfl

@[simp] theorem answer_key (h : Nat) (d : AnswerData) : (s.answer h d).key = s.key := rfl

@[simp] theorem answer_rk (h : Nat) (d : AnswerData) : (s.answer h d).rk = s.rk := rfl

@[simp] theorem answer_pending (h : Nat) (d : AnswerData) :
    (s.answer h d).pending = s.pending := rfl

@[simp] theorem answer_answers (h : Nat) (d : AnswerData) :
    (s.answer h d).answers = s.answers ++ [⟨h, d⟩] := rfl

/-! ### raiseError -/

@[simp] theorem raiseError_ksValid (e : CommandError) : (raiseError e s).ksValid = s.ksValid := rfl

@[simp] theorem raiseError_ksSize (e : CommandError) : (raiseError e s).ksSize = s.ksSize := rfl

@[simp] theorem raiseError_err (e : CommandError) : (raiseError e s).err = e.code := rfl

@[simp] theorem raiseError_pAcc (e : CommandError) : (raiseError e s).pAcc = s.pAcc := rfl

@[simp] theorem raiseError_pIn (e : CommandError) : (raiseError e s).pIn = s.pIn := rfl

@[simp] theorem raiseError_blkIn (e : CommandError) : (raiseError e s).blkIn = s.blkIn := rfl

@[simp] theorem raiseError_blkOut (e : CommandError) : (raiseError e s).blkOut = s.blkOut := rfl

@[simp] theorem raiseError_key (e : CommandError) : (raiseError e s).key = s.key := rfl

@[simp] theorem raiseError_rk (e : CommandError) : (raiseError e s).rk = s.rk := rfl

@[simp] theorem raiseError_pending (e : CommandError) : (raiseError e s).pending = s.pending := rfl

@[simp] theorem raiseError_answers (e : CommandError) : (raiseError e s).answers = s.answers := rfl

/-! ### succeed -/

@[simp] theorem succeed_ksValid : (succeed s).ksValid = s.ksValid := rfl

@[simp] theorem succeed_ksSize : (succeed s).ksSize = s.ksSize := rfl

@[simp] theorem succeed_err : (succeed s).err = errOk := rfl

@[simp] theorem succeed_pAcc : (succeed s).pAcc = s.pAcc := rfl

@[simp] theorem succeed_pIn : (succeed s).pIn = s.pIn := rfl

@[simp] theorem succeed_blkIn : (succeed s).blkIn = s.blkIn := rfl

@[simp] theorem succeed_blkOut : (succeed s).blkOut = s.blkOut := rfl

@[simp] theorem succeed_key : (succeed s).key = s.key := rfl

@[simp] theorem succeed_rk : (succeed s).rk = s.rk := rfl

@[simp] theorem succeed_pending : (succeed s).pending = s.pending := rfl

@[simp] theorem succeed_answers : (succeed s).answers = s.answers := rfl

/-! ### resetBlock -/

@[simp] theorem resetBlock_ksValid : (resetBlock s).ksValid = State.reset.ksValid := rfl

@[simp] theorem resetBlock_ksSize : (resetBlock s).ksSize = State.reset.ksSize := rfl

@[simp] theorem resetBlock_err : (resetBlock s).err = State.reset.err := rfl

@[simp] theorem resetBlock_pAcc : (resetBlock s).pAcc = State.reset.pAcc := rfl

@[simp] theorem resetBlock_pIn : (resetBlock s).pIn = State.reset.pIn := rfl

@[simp] theorem resetBlock_blkIn : (resetBlock s).blkIn = State.reset.blkIn := rfl

@[simp] theorem resetBlock_blkOut : (resetBlock s).blkOut = State.reset.blkOut := rfl

@[simp] theorem resetBlock_key : (resetBlock s).key = State.reset.key := rfl

@[simp] theorem resetBlock_rk : (resetBlock s).rk = State.reset.rk := rfl

@[simp] theorem resetBlock_pending : (resetBlock s).pending = s.pending := rfl

@[simp] theorem resetBlock_answers : (resetBlock s).answers = s.answers := rfl

/-- Two states with equal fields are equal. -/
theorem state_ext {s t : State} (h1 : s.ksValid = t.ksValid) (h2 : s.ksSize = t.ksSize)
    (h3 : s.err = t.err) (h4 : s.pAcc = t.pAcc) (h5 : s.pIn = t.pIn) (h6 : s.blkIn = t.blkIn)
    (h7 : s.blkOut = t.blkOut) (h8 : s.key = t.key) (h9 : s.rk = t.rk)
    (h10 : s.pending = t.pending) (h11 : s.answers = t.answers) : s = t := by
  cases s; cases t; simp_all

end Sys2Proof.Laws
end

