-- ==== Sys2Proof/Laws/Exec.lean ====
section
/-! SUPPORT. What a command can do, said once for each shared body and once for all commands. -/

namespace Sys2Proof.Laws

open Sys2Proof.Machine

/-- What KEYSCHED does, field by field (42_key_schedule.md R138). -/
theorem keySchedCmd_eq (k : KeySize) (s : State) :
    keySchedCmd k s =
      { s with rk := scheduleRegs k (keyExpand k (keyMaterial k s))
               key := Vector.replicate 8 0, ksValid := true, ksSize := k.code, err := 0 } := by
  apply state_ext <;> simp [keySchedCmd, errOk]

/-- What ENCRYPT does, said once (43_round_function.md R164). -/
theorem encryptCmd_cases (k : KeySize) (s : State) :
    (s.ksValid = false ∧ encryptCmd k s = raiseError .noSchedule s) ∨
    (s.ksValid = true ∧ s.ksSize ≠ k.code ∧ encryptCmd k s = raiseError .sizeMismatch s) ∨
    (s.ksValid = true ∧ s.ksSize = k.code ∧
      encryptCmd k s = succeed (s.setBlkOut (encrypt k (roundKey s.rk) s.blkIn))) := by
  unfold encryptCmd
  cases hv : s.ksValid
  · exact .inl ⟨rfl, if_pos rfl⟩
  · by_cases hz : s.ksSize = k.code
    · exact .inr (.inr ⟨rfl, hz, by simp [hz]⟩)
    · exact .inr (.inl ⟨rfl, hz, by simp [hz]⟩)

/-- What a command can do, said once: its effect is KEYSCHED's, ENCRYPT's or a primitive's. -/
theorem exec_cases (i : Instr) (s : State) :
    (∃ k, i = Instr.keysched k ∧ exec i s = .next (keySchedCmd k s)) ∨
    (∃ k, i = Instr.encrypt k ∧ exec i s = .next (encryptCmd k s)) ∨
    (∃ bs, i = .encround bs ∧ exec i s = .next (succeed (s.setPAcc (encRound s.pAcc s.pIn bs)))) ∨
    (∃ bs, i = .encroundlast bs ∧
      exec i s = .next (succeed (s.setPAcc (encRoundLast s.pAcc s.pIn bs)))) := by
  cases i with
  | keysched128 => exact .inl ⟨.k128, rfl, rfl⟩
  | keysched192 => exact .inl ⟨.k192, rfl, rfl⟩
  | keysched256 => exact .inl ⟨.k256, rfl, rfl⟩
  | encrypt128 => exact .inr (.inl ⟨.k128, rfl, rfl⟩)
  | encrypt192 => exact .inr (.inl ⟨.k192, rfl, rfl⟩)
  | encrypt256 => exact .inr (.inl ⟨.k256, rfl, rfl⟩)
  | encround bs => exact .inr (.inr (.inl ⟨bs, rfl, rfl⟩))
  | encroundlast bs => exact .inr (.inr (.inr ⟨bs, rfl, rfl⟩))

/-- A command completes and leaves the host's own registers and the bus fields alone. -/
theorem exec_next (i : Instr) (s : State) :
    ∃ t, exec i s = .next t ∧ t.pending = s.pending ∧ t.answers = s.answers ∧ t.pIn = s.pIn ∧
      t.blkIn = s.blkIn := by
  rcases exec_cases i s with ⟨k, -, h⟩ | ⟨k, -, h⟩ | ⟨bs, -, h⟩ | ⟨bs, -, h⟩
  · exact ⟨_, h, by simp [keySchedCmd]⟩
  · refine ⟨_, h, ?_⟩
    rcases encryptCmd_cases k s with ⟨-, h'⟩ | ⟨-, -, h'⟩ | ⟨-, -, h'⟩ <;> simp [h']
  · exact ⟨_, h, by simp⟩
  · exact ⟨_, h, by simp⟩

end Sys2Proof.Laws
end

