-- ==== Sys2Proof/Laws/Ops.lean ====
section
/-! SUPPORT. What the register map, the register read and the register write do. -/

namespace Sys2Proof.Laws

open Sys2Proof.Machine

/-- The register map sends a register's offset to the register (20_memory.md R52). -/
theorem regAt_offset (r : Reg) (o : BitVec 9) (h : r.offset = some o) : regAt o = r := by
  cases r <;> simp only [Reg.offset, Option.some.injEq, reduceCtorEq] at h <;> subst h
  case blkIn j => revert j; decide
  case blkOut j => revert j; decide
  case key j => revert j; decide
  case rk j => revert j; decide
  all_goals rfl

/-- Only the offset 0x000 names CMD. -/
theorem regAt_cmd (off : BitVec 9) : regAt off = .cmd ↔ off = 0 := by
  revert off; decide

/-- The alignment check on the two low offset bits is the one on the offset's value. -/
theorem offset_aligned_iff (off : BitVec 9) : off.extractLsb' 0 2 = 0b00 ↔ off.toNat % 4 = 0 := by
  revert off; decide

/-- A write to a register leaves the bus fields and the status bits alone. -/
theorem writeReg_frame (r : Reg) (v : Word) (s : State) :
    (writeReg r v s).pending = s.pending ∧ (writeReg r v s).answers = s.answers ∧
    (writeReg r v s).ksValid = s.ksValid ∧ (writeReg r v s).ksSize = s.ksSize ∧
    (writeReg r v s).err = s.err ∧ (writeReg r v s).blkOut = s.blkOut ∧ (writeReg r v s).rk = s.rk := by
  cases r <;> exact ⟨rfl, rfl, rfl, rfl, rfl, rfl, rfl⟩

@[simp] theorem writeReg_pending (r : Reg) (v : Word) (s : State) :
    (writeReg r v s).pending = s.pending := (writeReg_frame r v s).1

@[simp] theorem writeReg_answers (r : Reg) (v : Word) (s : State) :
    (writeReg r v s).answers = s.answers := (writeReg_frame r v s).2.1

/-- An answer changes what no register reads. -/
@[simp] theorem readReg_answer (r : Reg) (h : Nat) (d : AnswerData) (s : State) :
    readReg r (s.answer h d) = readReg r s := by cases r <;> rfl

/-- Nothing on the bus changes what a register reads. -/
@[simp] theorem readReg_setPending (r : Reg) (q : List BusEvent) (s : State) :
    readReg r (s.setPending q) = readReg r s := by cases r <;> rfl

/-- Every register reads after a reset as it reads at reset (70_reset_and_hazards.md R210). -/
@[simp] theorem readReg_resetBlock (r : Reg) (s : State) :
    readReg r (resetBlock s) = readReg r State.reset := by cases r <;> rfl

end Sys2Proof.Laws
end

