-- ==== Sys2Proof/Laws/Bus.lean ====
section
/-! SUPPORT. What serving an access, a write to CMD and a step can do, said once each. -/

namespace Sys2Proof.Laws

open Sys2Proof.Machine

/-- A write to CMD completes, whatever the word, and leaves the host's own registers and the bus fields
alone. -/
theorem execute_next (c : Word) (s : State) :
    ∃ t, execute c s = .next t ∧ t.pending = s.pending ∧ t.answers = s.answers ∧ t.pIn = s.pIn ∧
      t.blkIn = s.blkIn := by
  unfold execute
  cases decode c with
  | command i => exact exec_next i s
  | reject e => exact ⟨_, rfl, rfl, rfl, rfl, rfl⟩

/-- A register write is a command for CMD and a plain register write otherwise. -/
theorem regWrite_eq (off : BitVec 9) (v : Word) (s : State) :
    regWrite off v s = if off = 0 then execute v s else .next (writeReg (regAt off) v s) := by
  unfold regWrite
  split
  · rename_i h; rw [if_pos ((regAt_cmd off).1 h)]
  · rename_i h; rw [if_neg (fun h' => h ((regAt_cmd off).2 h'))]

/-- A register write completes and leaves the bus fields alone. -/
theorem regWrite_next (off : BitVec 9) (v : Word) (s : State) :
    ∃ t, regWrite off v s = .next t ∧ t.pending = s.pending ∧ t.answers = s.answers := by
  rw [regWrite_eq]
  split
  · obtain ⟨t, h, hp, ha, -⟩ := execute_next v s
    exact ⟨t, h, hp, ha⟩
  · exact ⟨_, rfl, (writeReg_frame _ _ _).1, (writeReg_frame _ _ _).2.1⟩

/-- An access is rejected exactly where it is not well formed (20_memory.md R55). -/
theorem access_rejected_iff (a : Access) :
    (a.bytes ≠ 4 ∨ a.off.extractLsb' 0 2 ≠ 0b00) ↔ a.wellFormed = false := by
  rw [Ne, Ne, offset_aligned_iff]
  simp only [Access.wellFormed, Access.widthOk, Access.aligned, Bool.and_eq_false_iff,
    beq_eq_false_iff_ne]

/-- What serving an access can do, said once (20_memory.md R55). -/
theorem serve_cases (a : Access) (s : State) :
    (a.wellFormed = false ∧ serve a s = .fault (.busError (addressOf a.off))) ∨
    (a.wellFormed = true ∧ a.kind = .read ∧
      serve a s = .next (s.answer a.host (.readData (regRead a.off s)))) ∨
    (a.wellFormed = true ∧ ∃ v t, a.kind = .write v ∧ regWrite a.off v s = .next t ∧
      serve a s = .next (t.answer a.host .written)) := by
  unfold serve
  split
  · rename_i h; exact .inl ⟨(access_rejected_iff a).1 h, rfl⟩
  · rename_i h
    have hw : a.wellFormed = true := by
      rw [access_rejected_iff] at h; simpa using h
    cases hk : a.kind with
    | read => exact .inr (.inl ⟨hw, rfl, rfl⟩)
    | write v =>
      obtain ⟨t, ht, -, -⟩ := regWrite_next a.off v s
      exact .inr (.inr ⟨hw, v, t, rfl, ht, by simp only [ht]; rfl⟩)

/-- What a step can do, said once (20_memory.md R61). -/
theorem step_cases (s : State) :
    (s.pending = [] ∧ step s = .next s) ∨
    (∃ rest, s.pending = .reset :: rest ∧ step s = .next (resetBlock (s.setPending rest))) ∨
    (∃ a rest, s.pending = .access a :: rest ∧ step s = serve a (s.setPending rest)) := by
  unfold step serveNext
  cases s.pending with
  | nil => exact .inl ⟨rfl, rfl⟩
  | cons e rest =>
    cases e with
    | access a => exact .inr (.inr ⟨a, rest, rfl, rfl⟩)
    | reset => exact .inr (.inl ⟨rest, rfl, rfl⟩)

/-- Serving an aligned 32-bit read. -/
theorem step_read (s : State) (h : Nat) (off : BitVec 9) (rest : List BusEvent)
    (hp : s.pending = .access ⟨h, off, 4, .read⟩ :: rest) (ha : off.toNat % 4 = 0) :
    step s = .next ((s.setPending rest).answer h (.readData (regRead off s))) := by
  have hc : ¬ ((4 : Nat) ≠ 4 ∨ off.extractLsb' 0 2 ≠ 0b00) := by
    rw [Ne, Ne, offset_aligned_iff]; omega
  simp only [step, serveNext, hp, serve, if_neg hc, regRead, readReg_setPending]

/-- Serving an aligned 32-bit write to a register other than CMD. -/
theorem step_write (s : State) (h : Nat) (off : BitVec 9) (v : Word) (rest : List BusEvent)
    (hp : s.pending = .access ⟨h, off, 4, .write v⟩ :: rest) (ha : off.toNat % 4 = 0) (h0 : off ≠ 0) :
    step s = .next ((writeReg (regAt off) v (s.setPending rest)).answer h .written) := by
  have hc : ¬ ((4 : Nat) ≠ 4 ∨ off.extractLsb' 0 2 ≠ 0b00) := by
    rw [Ne, Ne, offset_aligned_iff]; omega
  simp only [step, serveNext, hp, serve, if_neg hc, regWrite_eq, if_neg h0, answered]

/-- A run of one step more is that step and then the run. -/
theorem run_succ (n : Nat) {s t : State} (h : step s = .next t) :
    Sys2Proof.core.run (n + 1) s = Sys2Proof.core.run n t := by
  have hc : Sys2Proof.core.step s = .next t := h
  simp only [Host.Core.run, hc]

end Sys2Proof.Laws
end

