-- ==== Sys2Proof/Laws/Decode.lean ====
section
/-! SUPPORT. What decoding can answer, and that fields and words say the same. -/

namespace Sys2Proof.Laws

open Sys2Proof.Machine

/-- The fields of the word made from fields are those fields. -/
theorem fieldsOf_wordOfFields (f : CmdFields) : fieldsOf (wordOfFields f) = f := by
  obtain ⟨op, ksz, rl, bs, rh⟩ := f
  simp only [fieldsOf, wordOfFields, CmdFields.mk.injEq]
  refine ⟨?_, ?_, ?_, ?_, ?_⟩ <;> ext i hi <;>
    simp only [BitVec.getElem_extractLsb', BitVec.getLsbD_append]
  · simp [show i < 4 by omega]
  · simp [show ¬ 4 + i < 4 by omega, show 4 + i - 4 = i by omega, hi]
  · simp [show ¬ 6 + i < 4 by omega, show ¬ 6 + i - 4 < 2 by omega, show 6 + i - 4 - 2 = i by omega, hi]
  · simp [show ¬ 8 + i < 4 by omega, show ¬ 8 + i - 4 < 2 by omega, show ¬ 8 + i - 4 - 2 < 2 by omega,
      show 8 + i - 4 - 2 - 2 = i by omega, hi]
  · simp [show ¬ 10 + i < 4 by omega, show ¬ 10 + i - 4 < 2 by omega, show ¬ 10 + i - 4 - 2 < 2 by omega,
      show ¬ 10 + i - 4 - 2 - 2 < 2 by omega, show 10 + i - 4 - 2 - 2 - 2 = i by omega, hi]

/-- A word is put together from its fields. -/
theorem wordOfFields_fieldsOf (c : Word) : wordOfFields (fieldsOf c) = c := by
  simp only [fieldsOf, wordOfFields]
  apply BitVec.eq_of_getLsbD_eq
  intro i hi
  simp only [BitVec.getLsbD_append, BitVec.getLsbD_extractLsb']
  by_cases h0 : i < 4
  · simp [h0]
  by_cases h1 : i < 6
  · simp [h0, show i - 4 < 2 by omega, show 4 + (i - 4) = i by omega]
  by_cases h2 : i < 8
  · simp [h0, show ¬ i - 4 < 2 by omega, show i - 4 - 2 < 2 by omega, show 6 + (i - 4 - 2) = i by omega]
  by_cases h3 : i < 10
  · simp [h0, show ¬ i - 4 < 2 by omega, show ¬ i - 4 - 2 < 2 by omega, show i - 4 - 2 - 2 < 2 by omega,
      show 8 + (i - 4 - 2 - 2) = i by omega]
  · simp [h0, show ¬ i - 4 < 2 by omega, show ¬ i - 4 - 2 < 2 by omega, show ¬ i - 4 - 2 - 2 < 2 by omega,
      show i - 4 - 2 - 2 - 2 < 22 by omega, show 10 + (i - 4 - 2 - 2 - 2) = i by omega]

/-- No two rows of the opcode map cover one word. -/
theorem opcodeMap_disjoint :
    opcodeMap.Pairwise fun r r' => r.pattern &&& (r.mask &&& r'.mask) ≠ r'.pattern &&& (r.mask &&& r'.mask) := by
  decide

theorem keySizeOf_code (k : KeySize) : keySizeOf k.code = some k := by cases k <;> rfl

/-- What a key-size command decodes to, said once. -/
theorem decodeSized_cases (make : KeySize → Instr) (f : CmdFields) :
    (∃ k, f.bs = 0 ∧ f.ksz = k.code ∧ decodeSized make f = .command (make k)) ∨
    (decodeSized make f = .reject .badField ∧ (f.bs == 0 && f.ksz != 3) = false) := by
  obtain ⟨op, ksz, rl, bs, rh⟩ := f
  by_cases hb : bs = 0
  · subst hb
    revert ksz
    refine selector_cases _ (.inl ⟨.k128, ?_⟩) (.inl ⟨.k192, ?_⟩) (.inl ⟨.k256, ?_⟩) (.inr ?_)
    all_goals simp [decodeSized, keySizeOf, KeySize.code]
  · exact .inr ⟨if_pos hb, by simp at hb; simp [hb]⟩

/-- What decoding fields can answer, said once (30_encoding.md R82). -/
theorem decodeFields_cases (f : CmdFields) :
    (∃ i, decodeFields f = .command i ∧ i.fields = f) ∨
    (decodeFields f = .reject .illegalOp ∧ f.opOk = false) ∨
    (decodeFields f = .reject .reservedBits ∧ f.opOk = true ∧ f.reservedOk = false) ∨
    (decodeFields f = .reject .badField ∧ f.opOk = true ∧ f.reservedOk = true ∧ f.fieldsOk = false) := by
  unfold decodeFields
  split
  · rename_i h
    exact .inr (.inl ⟨rfl, by simpa [CmdFields.opOk, and_assoc] using h⟩)
  rename_i hop
  have hop' : f.opOk = true := by
    simp only [CmdFields.opOk, Bool.or_eq_true, beq_iff_eq]; tauto
  split
  · rename_i h
    refine .inr (.inr (.inl ⟨rfl, hop', ?_⟩))
    simp only [CmdFields.reservedOk, Bool.and_eq_false_iff, beq_eq_false_iff_ne]; exact h
  rename_i hres
  have hl : f.resLow = 0 := by tauto
  have hh : f.resHigh = 0 := by tauto
  have hres' : f.reservedOk = true := by simp [CmdFields.reservedOk, hl, hh]
  obtain ⟨op, ksz, rl, bs, rh⟩ := f
  simp only at hl hh
  subst hl hh
  split
  · rename_i h; simp only at h; subst h
    rcases decodeSized_cases Instr.keysched ⟨1, ksz, 0, bs, 0⟩ with ⟨k, hb, hk, hd⟩ | ⟨hd, hbad⟩
    · simp only at hb hk; subst hb hk
      exact .inl ⟨_, hd, by cases k <;> rfl⟩
    · exact .inr (.inr (.inr ⟨hd, hop', hres', by simpa [CmdFields.fieldsOk] using hbad⟩))
  split
  · rename_i h; simp only at h; subst h
    rcases decodeSized_cases Instr.encrypt ⟨2, ksz, 0, bs, 0⟩ with ⟨k, hb, hk, hd⟩ | ⟨hd, hbad⟩
    · simp only at hb hk; subst hb hk
      exact .inl ⟨_, hd, by cases k <;> rfl⟩
    · exact .inr (.inr (.inr ⟨hd, hop', hres', by simpa [CmdFields.fieldsOk] using hbad⟩))
  split
  · rename_i h; simp only at h; subst h
    by_cases hk : ksz = 0
    · subst hk; exact .inl ⟨_, rfl, rfl⟩
    · refine .inr (.inr (.inr ⟨if_pos hk, hop', hres', ?_⟩))
      simpa [CmdFields.fieldsOk] using hk
  · rename_i h1 h2 h3
    have h4 : op = 4 := by simp only at h1 h2 h3 hop; tauto
    subst h4
    by_cases hk : ksz = 0
    · subst hk; exact .inl ⟨_, rfl, rfl⟩
    · refine .inr (.inr (.inr ⟨if_pos hk, hop', hres', ?_⟩))
      simpa [CmdFields.fieldsOk] using hk

/-- Every command's fields pass the three checks and decode to the command. -/
theorem decodeFields_fields (i : Instr) : decodeFields i.fields = .command i ∧ i.fields.wellFormed = true := by
  cases i <;> simp [decodeFields, Instr.fields, decodeSized, decodePrimitive, keySizeOf, Instr.keysched,
    Instr.encrypt, CmdFields.wellFormed, CmdFields.opOk, CmdFields.reservedOk, CmdFields.fieldsOk]

end Sys2Proof.Laws
end

