-- ==== Sys2Proof/Laws/KeySchedule.lean ====
section
/-! SUPPORT. Lengths and words of the key schedule. -/

namespace Sys2Proof.Laws

open Sys2Proof.Machine

/-- A word of the registers a schedule is placed in (42_key_schedule.md R138). -/
@[simp] theorem scheduleRegs_getElem (k : KeySize) (out : List Word) (n : Nat) (h : n < 60) :
    (scheduleRegs k out)[n] = if n < k.scheduleWords then out.getD n 0 else 0 := by
  simp [scheduleRegs]

/-- A round key is four words of RK (41_codec.md R125). -/
theorem scheduleWord_of_lt (rk : Vector Word 60) (n : Nat) (h : n < 60) : scheduleWord rk n = rk[n] := by
  simp [scheduleWord, h]

/-- The later live words keep their number. -/
theorem updateRest_length (nk k : Nat) (p : Word) (ws : List Word) :
    (updateRest nk k p ws).length = ws.length := by
  induction ws generalizing k p with
  | nil => rfl
  | cons w ws ih => simp [updateRest, ih]

/-- An update step keeps the number of live words. -/
@[simp] theorem updateStep_length (nk i : Nat) (ws : List Word) :
    (updateStep nk i ws).length = ws.length := by
  cases ws with
  | nil => rfl
  | cons w ws => simp [updateStep, updateRest_length]

/-- The later live words, one by one: each is the old word XOR the new word before it, or its SubWord
(42_key_schedule.md R132). -/
theorem updateRest_getElem (nk k : Nat) (p : Word) (ws : List Word) (j : Nat) (h : j < ws.length) :
    (updateRest nk k p ws)[j]'(by simpa [updateRest_length] using h) =
      ws[j] ^^^ (if nk = 8 ∧ k + j = 4 then subWord ((p :: updateRest nk k p ws)[j]'(by simp [updateRest_length]; omega))
        else (p :: updateRest nk k p ws)[j]'(by simp [updateRest_length]; omega)) := by
  induction ws generalizing k p j with
  | nil => simp at h
  | cons w ws ih =>
    cases j with
    | zero =>
      simp only [updateRest, List.getElem_cons_zero, Nat.add_zero]
      split <;> rfl
    | succ j =>
      simp only [updateRest, List.getElem_cons_succ]
      rw [ih]
      rw [show k + 1 + j = k + (j + 1) by omega]

/-- The first live word after an update step (42_key_schedule.md R132). -/
theorem updateStep_zero (nk i : Nat) (ws : List Word) (h : 0 < ws.length) :
    (updateStep nk i ws)[0]'(by simpa using h) = updateFirst i ws[0] (ws[ws.length - 1]'(by omega)) := by
  cases ws with
  | nil => simp at h
  | cons w ws =>
    simp only [updateStep, List.getElem_cons_zero]
    congr 1
    rw [List.getLastD_eq_getLast?, List.getLast?_eq_getElem?]
    simp

/-- A later live word after an update step, from the new word before it (42_key_schedule.md R132). -/
theorem updateStep_succ (nk i : Nat) (ws : List Word) (j : Nat) (h : j + 1 < ws.length) :
    (updateStep nk i ws)[j + 1]'(by simpa using h) =
      ws[j + 1] ^^^ (if nk = 8 ∧ j + 1 = 4 then subWord ((updateStep nk i ws)[j]'(by simp; omega))
        else (updateStep nk i ws)[j]'(by simp; omega)) := by
  cases ws with
  | nil => simp at h
  | cons w ws =>
    simp only [updateStep, List.getElem_cons_succ]
    rw [updateRest_getElem _ _ _ _ _ (by simpa using h)]
    rw [Nat.add_comm 1 j]

/-- Every size reads all its key words from KEY (10_state.md R33). -/
@[simp] theorem keyMaterial_length (k : KeySize) (s : State) : (keyMaterial k s).length = k.nk := by
  cases k <;> simp [keyMaterial, KeySize.nk]

/-- The key words a size reads, one by one. -/
theorem keyMaterial_getElem? (k : KeySize) (s : State) (n : Nat) :
    (keyMaterial k s)[n]? = if n < k.nk then s.key[n]? else none := by
  simp only [keyMaterial, List.getElem?_take]
  split <;> simp

end Sys2Proof.Laws
end

