-- ==== Sys2Proof/Laws/PerInstr.lean ====
section
/-! SUPPORT. The per-instruction statements of LAWS.json. -/

namespace Sys2Proof.Laws

open Sys2Proof.Machine

/-- The encoder's word has the command's fields in their places, and they pass every decoding check
(30_encoding.md R77, R82). -/
def EncodeDecode.Statement (i : Instr) : Prop :=
  fieldsOf (encode i) = i.fields ∧ i.fields.wellFormed = true

theorem EncodeDecode.keysched128 : EncodeDecode.Statement .keysched128 :=
  ⟨fieldsOf_wordOfFields _, (decodeFields_fields _).2⟩

theorem EncodeDecode.keysched192 : EncodeDecode.Statement .keysched192 :=
  ⟨fieldsOf_wordOfFields _, (decodeFields_fields _).2⟩

theorem EncodeDecode.keysched256 : EncodeDecode.Statement .keysched256 :=
  ⟨fieldsOf_wordOfFields _, (decodeFields_fields _).2⟩

theorem EncodeDecode.encrypt128 : EncodeDecode.Statement .encrypt128 :=
  ⟨fieldsOf_wordOfFields _, (decodeFields_fields _).2⟩

theorem EncodeDecode.encrypt192 : EncodeDecode.Statement .encrypt192 :=
  ⟨fieldsOf_wordOfFields _, (decodeFields_fields _).2⟩

theorem EncodeDecode.encrypt256 : EncodeDecode.Statement .encrypt256 :=
  ⟨fieldsOf_wordOfFields _, (decodeFields_fields _).2⟩

theorem EncodeDecode.encround (bs : BitVec 2) : EncodeDecode.Statement (.encround bs) :=
  ⟨fieldsOf_wordOfFields _, (decodeFields_fields _).2⟩

theorem EncodeDecode.encroundlast (bs : BitVec 2) : EncodeDecode.Statement (.encroundlast bs) :=
  ⟨fieldsOf_wordOfFields _, (decodeFields_fields _).2⟩

end Sys2Proof.Laws
end

