-- ==== Sys2Proof/Laws/Primitives.lean ====
section
/-! SUPPORT. The contributions of the primitives, byte by byte. -/

namespace Sys2Proof.Laws

open Sys2Proof.Machine

/-- A contribution of the last-round primitive is one substituted byte in place `b` (40_primitives.md
R103). -/
theorem byteOf_encRoundLast (acc inp : Word) (b r : BitVec 2) :
    byteOf (encRoundLast acc inp b) (r + b) =
      byteOf acc (r + b) ^^^ (if r = 0#2 then sbox (byteOf inp b) else 0#8) := by
  rw [encRoundLast, byteOf_xor, byteOf_rotl32, byteOf_setWidth]

/-- EncRoundLast reaches byte `b` (40_primitives.md R103). -/
theorem byteOf_encRoundLast_same (acc inp : Word) (b : BitVec 2) :
    byteOf (encRoundLast acc inp b) b = byteOf acc b ^^^ sbox (byteOf inp b) := by
  simpa using byteOf_encRoundLast acc inp b 0#2

/-- EncRoundLast leaves every other byte (40_primitives.md R107, corner cases). -/
theorem byteOf_encRoundLast_other (acc inp : Word) (b k : BitVec 2) (h : k ≠ b) :
    byteOf (encRoundLast acc inp b) k = byteOf acc k := by
  have hk := byteOf_encRoundLast acc inp b (k - b)
  rw [BitVec.sub_add_cancel, if_neg (fun h0 => h (by rw [← BitVec.sub_add_cancel k b, h0]; simp))] at hk
  simpa using hk

/-- The MixColumns contribution of a byte in row `b`, row by row from `b` (40_primitives.md R102). -/
theorem byteOf_mc (x : Byte) (b r : BitVec 2) :
    byteOf (mc x b) (r + b) = byteOf (wordOf (xtime x) x x (mul3 x)) r := by
  rw [mc, byteOf_rotl32]

end Sys2Proof.Laws
end

