-- ==== Sys2Proof/Machine/Timing.lean ====
section
/-! DEFINITION. What the spec says of the work a command does (70_reset_and_hazards.md R213, R218). No
transition reads anything here: the model has no time (log entry 8). -/

namespace Sys2Proof

/-- The time a command takes, `AESKX_LAT(op, ksz)`: a function of the command word's OP and KSZ alone
(70_reset_and_hazards.md R213). -/
def Instr.latency (i : Instr) : Nat := Config.latency i.fields.op i.fields.ksz

/-- Four EncRound calls a word, four words a round, `Nr - 1` main rounds (43_round_function.md R160). -/
def KeySize.encRoundCalls (k : KeySize) : Nat := 4 * 4 * (k.nr - 1)

/-- Four EncRoundLast calls a SubWord, one SubWord an update step and a second one for AES-256
(42_key_schedule.md R132, R133). -/
def KeySize.scheduleCalls (k : KeySize) : Nat := 4 * (if k.nk = 8 then 2 else 1) * k.steps

/-- The EncRound calls of a command (70_reset_and_hazards.md R218). -/
def Instr.encRoundCalls : Instr → Nat
  | .keysched128 => 0
  | .keysched192 => 0
  | .keysched256 => 0
  | .encrypt128 => KeySize.k128.encRoundCalls
  | .encrypt192 => KeySize.k192.encRoundCalls
  | .encrypt256 => KeySize.k256.encRoundCalls
  | .encround _ => 1
  | .encroundlast _ => 0

/-- The EncRoundLast calls of a command (70_reset_and_hazards.md R218). -/
def Instr.encRoundLastCalls : Instr → Nat
  | .keysched128 => KeySize.k128.scheduleCalls
  | .keysched192 => KeySize.k192.scheduleCalls
  | .keysched256 => KeySize.k256.scheduleCalls
  | .encrypt128 => 4 * 4
  | .encrypt192 => 4 * 4
  | .encrypt256 => 4 * 4
  | .encround _ => 0
  | .encroundlast _ => 1

end Sys2Proof
end

