-- ==== Sys2Proof/Tests/Slice0.lean ====
section
/-! SUPPORT. Small tests whose expected values are those of spec/95_test_vectors.md and of the encodings of
spec/30_encoding.md, and a witness for the hypotheses of every obligation that has some. -/

namespace Sys2Proof.Tests

open Sys2Proof Sys2Proof.Machine

/-- A predicate of the next state; false where there is none. -/
def after (r : Result) (p : State → Bool) : Bool :=
  match r with
  | .next t => p t
  | .fault _ => false
  | .refused _ => false

/-- What the last answer of the next state read. -/
def lastRead (r : Result) : Option AnswerData :=
  match r with
  | .next t => t.answers.getLast?.map Answer.data
  | .fault _ => none
  | .refused _ => none

/-- The reset state with these key words. -/
def withKey (key : Vector Word 8) : State := { State.reset with key := key }

/-- The reset state with the accumulator and the input of the primitives. -/
def withPrim (acc inp : Word) : State := { State.reset with pAcc := acc, pIn := inp }

/-- The reset state with the schedule of a key and a block. -/
def withSchedule (k : KeySize) (key : List Word) (blk : Block) : State :=
  { State.reset with
    ksValid := true, ksSize := k.code, rk := scheduleRegs k (keyExpand k key), blkIn := blk }

/-- The reset state with these events waiting. -/
def waiting (q : List BusEvent) : State := { State.reset with pending := q }

/-! ### Well-formedness: an ill-formed term for each check -/

theorem test_wellFormed_refuses_8bit : (⟨0, 0x040, 1, .write 0⟩ : Access).wellFormed = false := by decide

theorem test_wellFormed_refuses_64bit : (⟨0, 0x040, 8, .read⟩ : Access).wellFormed = false := by decide

theorem test_wellFormed_refuses_misaligned : (⟨0, 0x002, 4, .read⟩ : Access).wellFormed = false := by decide

theorem test_wellFormed_accepts : (⟨0, 0x1FC, 4, .read⟩ : Access).wellFormed = true := by decide

theorem test_fields_refuse_op :
    (⟨0, 0, 0, 0, 0⟩ : CmdFields).opOk = false ∧ (⟨5, 0, 0, 0, 0⟩ : CmdFields).opOk = false := by decide

theorem test_fields_refuse_reserved :
    (⟨1, 0, 1, 0, 0⟩ : CmdFields).reservedOk = false ∧
    (⟨1, 0, 0, 0, 1⟩ : CmdFields).reservedOk = false := by decide

theorem test_fields_refuse_bad_field :
    (⟨1, 3, 0, 0, 0⟩ : CmdFields).fieldsOk = false ∧ (⟨2, 0, 0, 1, 0⟩ : CmdFields).fieldsOk = false ∧
    (⟨3, 1, 0, 0, 0⟩ : CmdFields).fieldsOk = false ∧ (⟨4, 2, 0, 0, 0⟩ : CmdFields).fieldsOk = false := by decide

/-! ### Decoding: words written out from 30_encoding.md R77 and R84, and the table of 95 section 3.7 -/

theorem test_decode_keysched128 :
    decode 0b00000000000000000000000000000001 = .command .keysched128 := by decide

theorem test_decode_keysched192 :
    decode 0b00000000000000000000000000010001 = .command .keysched192 := by decide

theorem test_decode_keysched256 :
    decode 0b00000000000000000000000000100001 = .command .keysched256 := by decide

theorem test_decode_encrypt128 :
    decode 0b00000000000000000000000000000010 = .command .encrypt128 := by decide

theorem test_decode_encrypt192 :
    decode 0b00000000000000000000000000010010 = .command .encrypt192 := by decide

theorem test_decode_encrypt256 :
    decode 0b00000000000000000000000000100010 = .command .encrypt256 := by decide

theorem test_decode_encround :
    decode 0b00000000000000000000001000000011 = .command (.encround 2) ∧
    decode 0x00000303 = .command (.encround 3) := by decide

theorem test_decode_encroundlast :
    decode 0b00000000000000000000000100000100 = .command (.encroundlast 1) ∧
    decode 0x00000004 = .command (.encroundlast 0) := by decide

theorem test_decode_illegal_op :
    decode 0x00000000 = .reject .illegalOp ∧ decode 0x00000005 = .reject .illegalOp ∧
    decode 0x0000000F = .reject .illegalOp := by decide

theorem test_decode_reserved_bits :
    decode 0x80000001 = .reject .reservedBits ∧ decode 0x00000401 = .reject .reservedBits ∧
    decode 0x00000041 = .reject .reservedBits ∧ decode 0x000000C4 = .reject .reservedBits ∧
    decode 0x00000432 = .reject .reservedBits := by decide

theorem test_decode_bad_field :
    decode 0x00000031 = .reject .badField ∧ decode 0x00000032 = .reject .badField ∧
    decode 0x00000101 = .reject .badField ∧ decode 0x00000013 = .reject .badField := by decide

theorem test_decodeTableWord :
    decodeTableWord 32 0x00000021 = some .keysched256 ∧
    decodeTableWord 32 0x00000203 = some (.encround 2) ∧ decodeTableWord 32 0x00000031 = none := by decide

/-! ### Words and the codec (00_scope.md R10, 95 sections 3.3 and 3.4) -/

theorem test_rotWord : rotWord 0x0f0e0d0c = 0x0c0f0e0d ∧ rotWord 0x01020304 = 0x04010203 := by decide

theorem test_subWord : subWord 0x01020304 = 0x7c777bf2 ∧ subWord 0x09cf4f3c = 0x018a84eb := by decide

theorem test_bytesToWords :
    bytesToWords [0x00, 0x11, 0x22, 0x33, 0x44, 0x55, 0x66, 0x77] = [0x33221100, 0x77665544] := by decide

theorem test_wordsToBytes :
    wordsToBytes [0xd8e0c469, 0x30047b6a] = [0x69, 0xc4, 0xe0, 0xd8, 0x6a, 0x7b, 0x04, 0x30] := by decide

/-! ### The primitives (95 sections 3.1 and 3.2) -/

theorem test_sbox_corners :
    sbox 0x00 = 0x63 ∧ sbox 0x53 = 0xed ∧ sbox 0x80 = 0xcd ∧ sbox 0xff = 0x16 := by decide

theorem test_xtime_mul3 :
    xtime 0x80 = 0x1b ∧ xtime 0x16 = 0x2c ∧ mul3 0xcd = 0x4c ∧ mul3 0xff = 0x1a := by decide

theorem test_encround_selector :
    after (exec (.encround 3) (withPrim 0x00000000 0x01020304)) (fun t => t.pAcc == 0xf8847c7c) = true := by
  decide

theorem test_encround_accumulates :
    after (exec (.encround 1) (withPrim 0xdeadbeef 0xcafebabe))
      (fun t => t.pAcc == 0x2a594de8 && t.pIn == 0xcafebabe && t.err == 0) = true := by decide

theorem test_encroundlast_selector :
    after (exec (.encroundlast 2) (withPrim 0x00000000 0x01020304)) (fun t => t.pAcc == 0x00770000) = true := by
  decide

theorem test_encroundlast_accumulates :
    after (exec (.encroundlast 3) (withPrim 0xdeadbeef 0xcafebabe))
      (fun t => t.pAcc == 0xaaadbeef && t.pIn == 0xcafebabe) = true := by decide

/-! ### KEYSCHED (95 section 3.5) -/

theorem test_keysched128_vector :
    after (exec .keysched128 (withKey #v[0x03020100, 0x07060504, 0x0b0a0908, 0x0f0e0d0c, 9, 9, 9, 9])) (fun t =>
      roundKey t.rk 1 == #v[0xfd74aad6, 0xfa72afd2, 0xf178a6da, 0xfe76abd6] &&
      roundKey t.rk 10 == #v[0x7f1d1113, 0x174a94e3, 0x8ba707f3, 0xc5302b4d] &&
      roundKey t.rk 11 == #v[0, 0, 0, 0] && t.key == Vector.replicate 8 0 && statusWord t == 0x00000001) =
      true := by decide +kernel

theorem test_keysched128_clears_old_schedule :
    after (exec .keysched128 { State.reset with rk := Vector.replicate 60 7, ksSize := 2 }) (fun t =>
      roundKey t.rk 1 == #v[0x63636362, 0x63636362, 0x63636362, 0x63636362] &&
      t.rk[44] == 0 && t.rk[59] == 0) = true := by decide +kernel

theorem test_keysched192_vector :
    after (exec .keysched192 (withKey #v[0xf7b0738e, 0x52640eda, 0x2bf310c8, 0xe5799080, 0xd2eaf862, 0x7b6b2c52,
      1, 2])) (fun t =>
      roundKey t.rk 1 == #v[0xd2eaf862, 0x7b6b2c52, 0xf7910cfe, 0xa5f50224] &&
      roundKey t.rk 12 == #v[0x6fa08be9, 0x3c778c44, 0x0472cc8e, 0x02220001] &&
      t.rk[52] == 0 && t.rk[53] == 0 && statusWord t == 0x00000003) = true := by decide +kernel

theorem test_keysched192_all_ones :
    after (exec .keysched192 (withKey (Vector.replicate 8 0xffffffff))) (fun t =>
      roundKey t.rk 1 == #v[0xffffffff, 0xffffffff, 0xe9e9e9e8, 0x16161617] &&
      roundKey t.rk 12 == #v[0x2f488e59, 0x64e3aeff, 0xcd9a983a, 0x18b43013]) = true := by decide +kernel

theorem test_keysched256_vector :
    after (exec .keysched256 (withKey #v[0x10eb3d60, 0xbe71ca15, 0xf0ae732b, 0x81777d85, 0x072c351f, 0xd708613b,
      0xa310982d, 0xf4df1409])) (fun t =>
      roundKey t.rk 3 == #v[0x1a9cb0a8, 0xcd94d193, 0x6e8449be, 0x9a5b5db7] &&
      roundKey t.rk 14 == #v[0xd19048fe, 0x0b8d18e6, 0x44f36d04, 0x1e636c70] &&
      statusWord t == 0x00000005) = true := by decide +kernel

theorem test_keysched256_zero_key :
    after (exec .keysched256 State.reset) (fun t =>
      roundKey t.rk 2 == #v[0x63636362, 0x63636362, 0x63636362, 0x63636362] &&
      roundKey t.rk 3 == #v[0xfbfbfbaa, 0xfbfbfbaa, 0xfbfbfbaa, 0xfbfbfbaa] &&
      roundKey t.rk 14 == #v[0x170af810, 0x9c72bf53, 0xe779c945, 0x856370cb]) = true := by decide +kernel

/-! ### ENCRYPT (95 sections 1 and 3.6) -/

/-- The AES-128 state of 95_test_vectors.md section 1. -/
def vector128 : State :=
  withSchedule .k128 [0x03020100, 0x07060504, 0x0b0a0908, 0x0f0e0d0c]
    #v[0x33221100, 0x77665544, 0xbbaa9988, 0xffeeddcc]

/-- The AES-192 state of 95_test_vectors.md section 1. -/
def vector192 : State :=
  withSchedule .k192 [0xf7b0738e, 0x52640eda, 0x2bf310c8, 0xe5799080, 0xd2eaf862, 0x7b6b2c52]
    #v[0xe2bec16b, 0x969f402e, 0x117e3de9, 0x2a179373]

/-- The AES-256 state of 95_test_vectors.md section 1. -/
def vector256 : State :=
  withSchedule .k256 [0x10eb3d60, 0xbe71ca15, 0xf0ae732b, 0x81777d85, 0x072c351f, 0xd708613b, 0xa310982d, 0xf4df1409]
    #v[0xe2bec16b, 0x969f402e, 0x117e3de9, 0x2a179373]

theorem test_encrypt128_vector :
    after (exec .encrypt128 vector128) (fun t =>
      t.blkOut == #v[0xd8e0c469, 0x30047b6a, 0x80b7cdd8, 0x5ac5b470] && t.err == 0) = true := by decide +kernel

theorem test_round_trace128 :
    afterRounds (roundKey vector128.rk) vector128.blkIn 1 = #v[0xe810d889, 0x68ce5a85, 0xd843182d, 0xe48f12cb] ∧
    afterRounds (roundKey vector128.rk) vector128.blkIn 9 = #v[0x3d7c6ebd, 0x9e77b5f2, 0x6e21610b, 0x89b6108b] := by
  decide +kernel

theorem test_encrypt192_vector :
    after (exec .encrypt192 vector192) (fun t =>
      t.blkOut == #v[0x1d4f33bd, 0x5ff2456e, 0x14a212f7, 0xcca51f57]) = true := by decide +kernel

theorem test_encrypt256_vector :
    after (exec .encrypt256 vector256) (fun t =>
      t.blkOut == #v[0xbdd1eef3, 0x3ca0d2b5, 0x7e5a4b06, 0xf881b13d]) = true := by decide +kernel

theorem test_encrypt_no_schedule :
    after (exec .encrypt128 State.reset) (fun t => decide (t = { State.reset with err := 4 })) = true := by decide

theorem test_encrypt_size_mismatch :
    after (exec .encrypt192 { State.reset with ksValid := true })
      (fun t => decide (t = { State.reset with ksValid := true, err := 5 })) = true ∧
    after (exec .encrypt128 { State.reset with ksValid := true, ksSize := 2 }) (fun t => t.err == 5) = true := by
  decide

/-! ### The register interface (95 section 3.8) -/

theorem test_read_status_cap_cmd_reserved :
    lastRead (step (waiting [rd 0 0x004])) = some (.readData 0x00000000) ∧
    lastRead (step (waiting [rd 0 0x008])) = some (.readData 0x0000000F) ∧
    lastRead (step (waiting [rd 0 0x000])) = some (.readData 0x00000000) ∧
    lastRead (step (waiting [rd 0 0x00C])) = some (.readData 0x00000000) := by decide

theorem test_read_status_after_error :
    lastRead (step { waiting [rd 0 0x004] with err := 5, ksValid := true, ksSize := 2 }) =
      some (.readData 0x00000055) := by decide

theorem test_read_last_rk :
    lastRead (step { waiting [rd 0 0x1EC] with rk := (Vector.replicate 60 0).set 59 0xabcd }) =
      some (.readData 0xabcd) := by decide

theorem test_write_key_word :
    after (step (waiting [wr 0 0x044 0xcafef00d])) (fun t => t.key == #v[0, 0xcafef00d, 0, 0, 0, 0, 0, 0]) = true := by
  decide

theorem test_write_read_only_ignored :
    after (step (waiting [wr 0 0x100 0x12345678])) (fun t => decide (t.rk = State.reset.rk)) = true ∧
    after (step (waiting [wr 0 0x030 0x12345678])) (fun t => decide (t.blkOut = State.reset.blkOut)) = true := by
  decide

theorem test_bus_errors :
    step (waiting [.access ⟨0, 0x040, 1, .write 0xff⟩]) = .fault (.busError (addressOf 0x040)) ∧
    step (waiting [.access ⟨0, 0x002, 4, .read⟩]) = .fault (.busError (addressOf 0x002)) ∧
    step (waiting [.access ⟨0, 0x000, 2, .write 1⟩]) = .fault (.busError (addressOf 0x000)) := ⟨rfl, rfl, rfl⟩

theorem test_reset_event :
    after (step { vector128 with pending := [.reset, rd 1 0x008] })
      (fun t => decide (t = waiting [rd 1 0x008])) = true := by decide +kernel

theorem test_idle : after (step State.reset) (fun t => decide (t = State.reset)) = true := by decide

/-- A command placed by `withFetchWord` runs as the first one after reset. -/
theorem test_withFetchWord_runs :
    after (step (State.reset.withFetchWord 32 0x00000021)) (fun t => t.ksValid && t.ksSize == 2) = true ∧
    after (step (State.reset.withFetchWord 32 0x00000002)) (fun t => t.err == 4) = true ∧
    after (step (State.reset.withFetchWord 32 0x00000003)) (fun t => t.pAcc == 0xa56363c6) = true ∧
    after (step (State.reset.withFetchWord 32 0x00000304)) (fun t => t.pAcc == 0x63000000) = true := by
  decide +kernel

/-- The primitive-call counts of 70_reset_and_hazards.md R218. -/
theorem test_primitive_calls :
    [Instr.keysched128, .keysched192, .keysched256, .encrypt128, .encrypt192, .encrypt256, .encround 0,
      .encroundlast 0].map (fun i => (i.encRoundCalls, i.encRoundLastCalls)) =
    [(0, 40), (0, 32), (0, 56), (144, 16), (176, 16), (208, 16), (1, 0), (0, 1)] := by decide

/-! ### Witnesses: states that meet the hypotheses of the obligations -/

theorem witness_IllegalWordClassesReportTheirCode :
    ((0x00000000 : Word).extractLsb' 0 4 = 0 ∧ 5 ≤ ((0x00000005 : Word).extractLsb' 0 4).toNat ∧
      5 ≤ ((0x0000000F : Word).extractLsb' 0 4).toNat) ∧
    ((0x00000041 : Word).extractLsb' 0 4 = 1 ∧ (0x00000041 : Word).extractLsb' 6 2 ≠ 0 ∧
      (0x80000004 : Word).extractLsb' 0 4 = 4 ∧ (0x80000004 : Word).extractLsb' 10 22 ≠ 0) ∧
    ((0x00000032 : Word).extractLsb' 0 4 = 2 ∧ (0x00000032 : Word).extractLsb' 6 2 = 0 ∧
      (0x00000032 : Word).extractLsb' 10 22 = 0 ∧ (0x00000032 : Word).extractLsb' 4 2 = 0b11) ∧
    ((0x00000301 : Word).extractLsb' 0 4 = 1 ∧ (0x00000301 : Word).extractLsb' 6 2 = 0 ∧
      (0x00000301 : Word).extractLsb' 10 22 = 0 ∧ (0x00000301 : Word).extractLsb' 8 2 ≠ 0) ∧
    ((0x00000013 : Word).extractLsb' 0 4 = 3 ∧ (0x00000034 : Word).extractLsb' 0 4 = 4 ∧
      (0x00000013 : Word).extractLsb' 6 2 = 0 ∧ (0x00000013 : Word).extractLsb' 10 22 = 0 ∧
      (0x00000013 : Word).extractLsb' 4 2 ≠ 0 ∧ (0x00000034 : Word).extractLsb' 4 2 ≠ 0) := by decide

theorem witness_CommandErrorChangesOnlyErr :
    after (execute 0x00000002 State.reset) (fun t => decide (t.err ≠ 0)) = true := by decide

theorem witness_StepRunsTheDecodedCommand :
    (waiting [cmdw 3 0x00000004]).pending = .access ⟨3, 0x000, 4, .write 0x00000004⟩ :: [] ∧
    decode 0x00000004 = .command (.encroundlast 0) := ⟨rfl, by decide⟩

theorem witness_StepReportsARejectedWord :
    (waiting [cmdw 0 0x00000031]).pending = .access ⟨0, 0x000, 4, .write 0x00000031⟩ :: [] ∧
    decode 0x00000031 = .reject .badField := ⟨rfl, by decide⟩

theorem witness_HostAccessIsServedOrABusError :
    ((⟨0, 0x1FF, 4, .read⟩ : Access).off.toNat % 4 ≠ 0 ∧ (⟨0, 0x000, 2, .read⟩ : Access).bytes ≠ 4) ∧
    ((⟨0, 0x1FC, 4, .read⟩ : Access).bytes = 4 ∧ (⟨0, 0x1FC, 4, .read⟩ : Access).off.toNat % 4 = 0) ∧
    ((⟨0, 0x000, 4, .write 1⟩ : Access).bytes = 4 ∧ (⟨0, 0x000, 4, .write 1⟩ : Access).off.toNat % 4 = 0) ∧
    (waiting [rd 0 0x1FC]).pending = .access ⟨0, 0x1FC, 4, .read⟩ :: [] := ⟨by decide, by decide, by decide, rfl⟩

theorem witness_WindowIsFiveHundredTwelveBytesAtTheBase :
    (Config.base ≤ Config.base ∧ Config.base ≤ Config.base + 0x1FF) ∧
    (Config.base ≤ Config.base + 0x1FF ∧ Config.base + 0x1FF ≤ Config.base + 0x1FF) ∧
    Config.base + 0x1FF < Config.base + 0x200 := by omega

theorem witness_RegisterReadReturns_reserved :
    [0x00C, 0x018, 0x01C, 0x060, 0x0FC, 0x1F0, 0x1FC].all (fun o => regAt (BitVec.ofNat 9 o) == .reserved) =
      true := by decide

theorem witness_RegisterWriteDoes_ignored :
    [0x004, 0x008, 0x00C, 0x018, 0x01C, 0x030, 0x03C, 0x060, 0x100, 0x1EC, 0x1FC].all (fun o =>
      !(regAt (BitVec.ofNat 9 o)).hostWritable && regAt (BitVec.ofNat 9 o) != .cmd) = true := by decide

theorem witness_HostWriteChangesOnlyItsRegister :
    (waiting [wr 0 0x05C 7]).pending = .access ⟨0, 0x05C, 4, .write 7⟩ :: [] ∧
    (0x05C : BitVec 9).toNat % 4 = 0 ∧ (regAt 0x05C).hostWritable = true := ⟨rfl, by decide, by decide⟩

theorem witness_ReadOnlyAndReservedOffsetsIgnoreWrites :
    ((waiting [wr 0 0x1EC 7]).pending = .access ⟨0, 0x1EC, 4, .write 7⟩ :: [] ∧
      (regAt 0x1EC).hostWritable = false ∧ (0x1EC : BitVec 9) ≠ 0) ∧
    ((waiting [rd 0 0x1F0]).pending = .access ⟨0, 0x1F0, 4, .read⟩ :: [] ∧ regAt 0x1F0 = .reserved) :=
  ⟨⟨rfl, by decide, by decide⟩, rfl, by decide⟩

theorem witness_StatusReadShowsItsFields : (waiting [rd 0 0x004]).pending = rd 0 0x004 :: [] := rfl

theorem witness_StepServesTheOldestEvent :
    step (waiting [rd 2 0x008]) = .next ((waiting []).answer 2 (.readData 0x0000000F)) ∧
    step State.reset = .next State.reset ∧ step (waiting [.reset]) = .next State.reset := ⟨rfl, rfl, rfl⟩

theorem witness_EveryHostIsAnsweredInArrivalOrder :
    Interleaving (fun h => if h = 0 then [⟨0, 0x008, 4, .read⟩] else []) [⟨0, 0x008, 4, .read⟩] ∧
    (waiting [rd 0 0x008]).pending = [(⟨0, 0x008, 4, .read⟩ : Access)].map .access := by
  refine ⟨⟨fun h => ?_, fun a ha => ?_⟩, rfl⟩
  · by_cases h0 : h = 0
    · subst h0; rfl
    · simp [h0, Ne.symm h0]
  · simp only [List.mem_singleton] at ha
    subst ha
    simp [Config.hosts]

theorem witness_EveryHostHasTheSameRights :
    step (waiting [rd 2 0x008]) = .next ((waiting []).answer 2 (.readData 0x0000000F)) ∧
    step (waiting [.access ⟨1, 0x001, 4, .read⟩]) = .fault (.busError (addressOf 0x001)) := ⟨rfl, rfl⟩

theorem witness_ResetLeavesNothingOfACommand :
    (waiting [.reset]).pending = .reset :: [] ∧
    (waiting [cmdw 0 0x00000001, .reset]).pending = .access ⟨0, 0x000, 4, .write 0x00000001⟩ :: .reset :: [] :=
  ⟨rfl, rfl⟩

theorem witness_ScheduleChangesOnlyByKeyschedOrReset :
    (commandServed (waiting [cmdw 0 0x00000011]) = some (.command .keysched192) ∧
      Instr.keyschedSize .keysched192 = some .k192) ∧
    resetServed (waiting [.reset]) = true ∧
    (commandServed (waiting [rd 0 0x100]) = none ∧ resetServed (waiting [rd 0 0x100]) = false) := by decide

theorem witness_ErrIsTheLastCommandsResult :
    (commandServed (waiting [rd 0 0x004]) = none ∧ resetServed (waiting [rd 0 0x004]) = false) ∧
    resetServed (waiting [.reset]) = true ∧
    commandServed (waiting [cmdw 0 0x00000000]) = some (.reject .illegalOp) ∧
    commandServed (waiting [cmdw 0 0x00000012]) = some (.command (Instr.encrypt .k192)) ∧
    (commandServed (waiting [cmdw 0 0x00000103]) = some (.command (.encround 1)) ∧
      ∀ k, Instr.encround 1 ≠ Instr.encrypt k) := by
  refine ⟨by decide, by decide, by decide, by decide, by decide, fun k => ?_⟩
  cases k <;> decide

/-- The three results of a served ENCRYPT192: no schedule, another size, its size. -/
theorem witness_ErrIsTheLastCommandsResult_encrypt :
    [(false, 0), (true, 0), (true, 1)].map (fun p =>
      after (step { waiting [cmdw 0 0x00000012] with ksValid := p.1, ksSize := p.2 }) fun t =>
        t.err == (if p.1 = false then 4 else if p.2 = 0 then 5 else 0)) = [true, true, true] := by decide +kernel

theorem witness_BlkOutChangesOnlyByEncryptOrReset :
    after (step { vector128 with pending := [cmdw 0 0x00000002] }) (fun t => decide (t.blkOut ≠ vector128.blkOut)) =
      true := by decide +kernel

theorem witness_KeyAndAccumulatorChangeOnlyByTheirWriters :
    after (step (waiting [wr 0 0x040 1])) (fun t => decide (t.key ≠ State.reset.key)) = true ∧
    after (step (waiting [cmdw 0 0x00000003])) (fun t => decide (t.pAcc ≠ State.reset.pAcc)) = true := by decide

theorem witness_InputRegistersChangeOnlyByTheHost :
    after (step (waiting [wr 0 0x014 1])) (fun t => decide (t.pIn ≠ State.reset.pIn)) = true ∧
    after (step (waiting [wr 0 0x02C 1])) (fun t => decide (t.blkIn ≠ State.reset.blkIn)) = true := by decide

theorem witness_CommandsWriteOnlyTheirRegisters :
    (∃ t, exec (.encround 0) State.reset = .next t) ∧ (Instr.encround 0).writes .pIn = false ∧
    (Instr.encround 0).keyschedSize = none := ⟨⟨_, rfl⟩, rfl, rfl⟩

theorem witness_EncroundlastAccumulatesOneByte : (3 : BitVec 2) ≠ 0 ∧ (0 : BitVec 2) ≠ 3 := by decide

theorem witness_PrimitiveLaws :
    [(⟨true, 1, 0⟩ : PrimCall), ⟨false, 2, 3⟩].Perm [⟨false, 2, 3⟩, ⟨true, 1, 0⟩] ∧
    byteOf 0x01020304 3 = byteOf 0x01ffffff 3 := ⟨.swap _ _ _, by decide⟩

theorem witness_RconValuesAndRecurrence : rcon (8 + 1) = xtime (rcon 8) ∧ rcon (0 + 1) = xtime (rcon 0) := by decide

theorem witness_ResetValues : Reg.rk 59 ≠ .cap ∧ Reg.cmd ≠ .cap := by decide

theorem witness_KeyschedLeavesTheFlatSchedule :
    KeySize.k128.scheduleWords ≤ (44 : Fin 60).val ∧ KeySize.k192.scheduleWords ≤ (52 : Fin 60).val := by decide

theorem witness_key_lengths :
    (List.replicate 4 (0 : Word)).length = KeySize.k128.nk ∧ (List.replicate 6 (0 : Word)).length = KeySize.k192.nk ∧
    (List.replicate 8 (0 : Word)).length = KeySize.k256.nk := by decide

theorem witness_KeyschedReadsOnlyItsKeyWords :
    (∀ n, n < KeySize.k128.nk → State.reset.key[n]? = (withKey #v[0, 0, 0, 0, 1, 2, 3, 4]).key[n]?) ∧
    (∃ t, exec (Instr.keysched .k128) State.reset = .next t) ∧
    ∃ t, exec (Instr.keysched .k128) (withKey #v[0, 0, 0, 0, 1, 2, 3, 4]) = .next t :=
  ⟨by decide, ⟨_, rfl⟩, ⟨_, rfl⟩⟩

theorem witness_EncryptChecksThenEncrypts :
    State.reset.ksValid = false ∧ (vector128.ksValid = true ∧ vector128.ksSize ≠ KeySize.k256.code) ∧
    vector256.ksSize = KeySize.k256.code := by decide

theorem witness_EncryptIsTheAesCipher :
    (vector128.ksValid = true ∧ vector128.ksSize = 0b00) ∧ (vector192.ksValid = true ∧ vector192.ksSize = 0b01) ∧
    (vector256.ksValid = true ∧ vector256.ksSize = 0b10) := by decide

theorem witness_EncryptReadsOnlyItsOperands :
    (∃ t, exec (Instr.encrypt .k128) vector128 = .next t ∧ t.err = 0) ∧
    (∃ t, exec (Instr.encrypt .k128) { vector128 with rk := vector128.rk.set 59 1, pAcc := 5 } = .next t) ∧
    ∀ n, n < 4 * KeySize.k128.nr + 4 → vector128.rk[n]? = (vector128.rk.set 59 1)[n]? := by
  refine ⟨⟨_, rfl, rfl⟩, ⟨_, rfl⟩, fun n hn => ?_⟩
  simp only [KeySize.nr] at hn
  rw [Vector.getElem?_set_ne]
  omega

theorem witness_RepeatedEncryptChangesNothing : ∃ t, exec (Instr.encrypt .k192) vector192 = .next t := ⟨_, rfl⟩

theorem witness_EveryStepKeepsTheInvariant :
    InvFor none (waiting [cmdw 0 0x00000001]) ∧ ∃ t, step (waiting [cmdw 0 0x00000001]) = .next t :=
  ⟨⟨⟨by decide, (by intro h; cases h), fun _ n => by revert n; decide, rfl, by decide, by decide⟩, rfl,
    fun _ _ h => by cases h⟩, _, rfl⟩

theorem witness_ReachableStatesHaveTheInvariant : Reachable none (State.reset.receive (rd 0 0x008)) :=
  .arrives _ .reset

theorem witness_CodecPlacesEachByte :
    (List.replicate 16 (0 : Byte)).length = 4 * 4 ∧ (List.replicate 4 (0 : Word)).length = 4 := by decide

theorem witness_LdkeyPlacesTheKeyWords :
    (List.replicate 24 (1 : Byte)).length = 4 * KeySize.k192.nk ∧
    (waiting (ldkey 0 (List.replicate 24 1))).pending = ldkey 0 (List.replicate 24 1) := ⟨by decide, rfl⟩

theorem witness_LdblkAndRdblkMoveBlocks :
    (waiting (ldblk 0 (List.replicate 16 1))).pending = ldblk 0 (List.replicate 16 1) ∧
    (waiting (rdblk 0)).pending = rdblk 0 := ⟨rfl, rfl⟩

theorem witness_SubwordAndMixcolCompute :
    (waiting (subword 0 1)).pending = subword 0 1 ∧ (waiting (mixcol 0 1 2 3 4 5)).pending = mixcol 0 1 2 3 4 5 :=
  ⟨rfl, rfl⟩

end Sys2Proof.Tests
end

section
/-! ## What a step serves

A step's outcome told by the event at the head of the queue, and what the statements' own names for that event
(`resetServed`, `commandServed`) answer in each case. -/

namespace Sys2Proof.Proofs

open Sys2Proof.Machine Sys2Proof.Laws

/-- The ways a step completes, one for each kind of event it serves (20_memory.md R55, R61; 30_encoding.md
R82). -/
inductive Serves (s : State) : State → Prop where
  | idle : s.pending = [] → Serves s s
  | reset {rest : List BusEvent} : s.pending = .reset :: rest → Serves s (resetBlock (s.setPending rest))
  | read {host : Nat} {off : BitVec 9} {rest : List BusEvent} :
      s.pending = .access ⟨host, off, 4, .read⟩ :: rest → off.extractLsb' 0 2 = 0b00 →
      Serves s ((s.setPending rest).answer host (.readData (regRead off (s.setPending rest))))
  | write {host : Nat} {off : BitVec 9} {v : Word} {rest : List BusEvent} :
      s.pending = .access ⟨host, off, 4, .write v⟩ :: rest → off.extractLsb' 0 2 = 0b00 → off ≠ 0 →
      Serves s ((writeReg (regAt off) v (s.setPending rest)).answer host .written)
  | command {host : Nat} {c : Word} {rest : List BusEvent} {i : Instr} {t : State} :
      s.pending = .access ⟨host, 0, 4, .write c⟩ :: rest → decode c = .command i →
      exec i (s.setPending rest) = .next t → Serves s (t.answer host .written)
  | reject {host : Nat} {c : Word} {rest : List BusEvent} {e : CommandError} :
      s.pending = .access ⟨host, 0, 4, .write c⟩ :: rest → decode c = .reject e →
      Serves s ((raiseError e (s.setPending rest)).answer host .written)

/-- A served access that is no bus error is 32 bits wide and aligned (20_memory.md R55). -/
theorem wellFormed_iff (a : Access) : a.wellFormed = true ↔ a.bytes = 4 ∧ a.off.extractLsb' 0 2 = 0b00 := by
  have h := access_rejected_iff a
  rw [← Bool.not_eq_true] at h
  tauto

/-- A 32-bit write served is a command, a rejected word or a register write. -/
theorem serves_of_regWrite {s t : State} {host : Nat} {off : BitVec 9} {v : Word} {rest : List BusEvent}
    (hp : s.pending = .access ⟨host, off, 4, .write v⟩ :: rest) (ha : off.extractLsb' 0 2 = 0b00)
    (ht : regWrite off v (s.setPending rest) = .next t) : Serves s (t.answer host .written) := by
  rw [regWrite_eq] at ht
  by_cases h0 : off = 0
  · subst h0
    rw [if_pos rfl, execute] at ht
    cases hd : decode v with
    | command i => exact .command hp hd (by simpa only [hd] using ht)
    | reject e =>
      simp only [hd, Host.Outcome.next.injEq] at ht
      exact ht ▸ .reject hp hd
  · rw [if_neg h0, Host.Outcome.next.injEq] at ht
    exact ht ▸ .write hp ha h0

/-- An access served without a bus error is a read or a write. -/
theorem serves_of_serve {s t : State} {a : Access} {rest : List BusEvent}
    (hp : s.pending = .access a :: rest) (h : serve a (s.setPending rest) = .next t) : Serves s t := by
  obtain ⟨host, off, bytes, kind⟩ := a
  rcases serve_cases ⟨host, off, bytes, kind⟩ (s.setPending rest) with
    ⟨-, hv⟩ | ⟨hw, rfl, hv⟩ | ⟨hw, v, u, rfl, hu, hv⟩
  · simp [h] at hv
  · obtain ⟨rfl, ha⟩ := (wellFormed_iff _).1 hw
    cases h.symm.trans hv
    exact .read hp ha
  · obtain ⟨rfl, ha⟩ := (wellFormed_iff _).1 hw
    cases h.symm.trans hv
    exact serves_of_regWrite hp ha hu

/-- Every step that completes serves one of the events. -/
theorem serves_of_step {s t : State} (h : step s = .next t) : Serves s t := by
  rcases step_cases s with ⟨hp, hs⟩ | ⟨rest, hp, hs⟩ | ⟨a, rest, hp, hs⟩
  · cases h.symm.trans hs
    exact .idle hp
  · cases h.symm.trans hs
    exact .reset hp
  · exact serves_of_serve hp (hs ▸ h)

/-! What `lastKeyAfter` says of each event. -/

variable {s : State} {host : Nat} {off : BitVec 9} {v c : Word} {rest : List BusEvent}
  {g : Option (KeySize × List Word)}

theorem lastKeyAfter_idle (hp : s.pending = []) : lastKeyAfter g s = g := by
  simp [lastKeyAfter, resetServed, commandServed, hp]

theorem lastKeyAfter_reset (hp : s.pending = .reset :: rest) : lastKeyAfter g s = none := by
  simp [lastKeyAfter, resetServed, hp]

theorem lastKeyAfter_read (hp : s.pending = .access ⟨host, off, 4, .read⟩ :: rest) :
    lastKeyAfter g s = g := by
  simp [lastKeyAfter, resetServed, commandServed, hp]

theorem lastKeyAfter_write (hp : s.pending = .access ⟨host, off, 4, .write v⟩ :: rest) (h0 : off ≠ 0) :
    lastKeyAfter g s = g := by
  have hoff : ¬ off = 0#9 := h0
  simp [lastKeyAfter, resetServed, commandServed, hp, hoff]

theorem lastKeyAfter_reject {e : CommandError} (hp : s.pending = .access ⟨host, 0, 4, .write c⟩ :: rest)
    (hd : decode c = .reject e) : lastKeyAfter g s = g := by
  simp [lastKeyAfter, resetServed, commandServed, hp, hd]

theorem lastKeyAfter_command {i : Instr} (hp : s.pending = .access ⟨host, 0, 4, .write c⟩ :: rest)
    (hd : decode c = .command i) :
    lastKeyAfter g s = (i.keyschedSize.map fun k => (k, keyMaterial k s)).or g := by
  cases hk : i.keyschedSize <;> simp [lastKeyAfter, resetServed, commandServed, hp, hd, hk]

end Sys2Proof.Proofs
end

section
/-! ## The invariant of 10_state.md R37

`InvFor` rests on `KS_VALID`, `KS_SIZE`, `RK` and the bound on `ERR` alone: it holds at reset, a KEYSCHED
establishes it for the key it read, and whatever else happens leaves the first three alone. -/

namespace Sys2Proof.Proofs

open Sys2Proof.Machine Sys2Proof.Laws

@[simp] theorem keyschedSize_keysched (k : KeySize) : (Instr.keysched k).keyschedSize = some k := by
  cases k <;> rfl

@[simp] theorem keyschedSize_encrypt (k : KeySize) : (Instr.encrypt k).keyschedSize = none := by
  cases k <;> rfl

theorem keySize_code_ne_three (k : KeySize) : k.code ≠ 0b11 := by cases k <;> decide

theorem commandError_code_le_five (e : CommandError) : e.code.toNat ≤ 5 := by cases e <;> decide

/-- Bits 3 and 31:8 of STATUS read zero in every state (R24). -/
theorem statusWord_reserved (s : State) :
    (statusWord s).getLsbD 3 = false ∧ (statusWord s).extractLsb' 8 24 = 0 := by
  unfold statusWord
  constructor
  · rw [BitVec.getLsbD_append, BitVec.getLsbD_append, BitVec.getLsbD_append]
    rfl
  · apply BitVec.eq_of_getLsbD_eq
    intro i hi
    rw [BitVec.getLsbD_extractLsb', BitVec.getLsbD_append, BitVec.getLsbD_append, BitVec.getLsbD_append,
      BitVec.getLsbD_append, if_neg (by omega), if_neg (by omega), if_neg (by omega), if_neg (by omega)]
    simp

/-- The invariant where no KEYSCHED has succeeded since reset. -/
theorem invFor_none {s : State} (hv : s.ksValid = false) (hz : s.ksSize ≠ 0b11)
    (hrk : ∀ n : Fin 60, s.rk[n] = 0) (he : s.err.toNat ≤ 5) : InvFor none s where
  inv := {
    ksSize_legal := hz
    schedule := fun h => by simp [hv] at h
    no_schedule := fun _ => hrk
    cap := rfl
    status_reserved := statusWord_reserved s
    err_legal := he }
  valid := hv
  last := fun _ _ h => by cases h

/-- The invariant where the last successful KEYSCHED read `key`. -/
theorem invFor_some {s : State} {k : KeySize} {key : List Word} (hv : s.ksValid = true)
    (hz : s.ksSize = k.code) (hk : HoldsSchedule k key s) (he : s.err.toNat ≤ 5) :
    InvFor (some (k, key)) s where
  inv := {
    ksSize_legal := hz ▸ keySize_code_ne_three k
    schedule := fun _ => ⟨k, key, hz, hk⟩
    no_schedule := fun h => by simp [hv] at h
    cap := rfl
    status_reserved := statusWord_reserved s
    err_legal := he }
  valid := hv
  last := fun _ _ h => by cases h; exact ⟨hz, hk⟩

/-- The schedule, its size and its validity are the same in two states. -/
def SameSchedule (s t : State) : Prop := t.ksValid = s.ksValid ∧ t.ksSize = s.ksSize ∧ t.rk = s.rk

/-- What leaves the schedule alone and a legal ERR keeps the invariant, for the same key. -/
theorem invFor_of_sameSchedule {g : Option (KeySize × List Word)} {s t : State} (hi : InvFor g s)
    (hst : SameSchedule s t) (he : t.err.toNat ≤ 5) : InvFor g t := by
  obtain ⟨hv, hz, hrk⟩ := hst
  cases g with
  | none =>
    have hs : s.ksValid = false := hi.valid
    exact invFor_none (hv.trans hs) (hz ▸ hi.inv.ksSize_legal) (hrk ▸ hi.inv.no_schedule hs) he
  | some p =>
    obtain ⟨k, key⟩ := p
    obtain ⟨hsize, hlen, hwords⟩ := hi.last k key rfl
    exact invFor_some (hv.trans hi.valid) (hz.trans hsize) ⟨hlen, hrk ▸ hwords⟩ he

/-- Reset establishes the invariant, with no key. -/
theorem invFor_reset : InvFor none State.reset :=
  invFor_none rfl (by decide) (fun n => by simp [State.reset]) (by decide)

/-- KEYSCHED places the schedule of the key it reads (42_key_schedule.md R138). -/
theorem holdsSchedule_keySchedCmd (k : KeySize) (s : State) :
    HoldsSchedule k (keyMaterial k s) (keySchedCmd k s) :=
  ⟨keyMaterial_length k s, fun n => by simp [keySchedCmd_eq]⟩

/-- KEYSCHED establishes the invariant for the key it reads, in whatever state it runs. -/
theorem invFor_keySchedCmd (k : KeySize) (s : State) :
    InvFor (some (k, keyMaterial k s)) (keySchedCmd k s) :=
  invFor_some (by simp [keySchedCmd_eq]) (by simp [keySchedCmd_eq]) (holdsSchedule_keySchedCmd k s)
    (by simp [keySchedCmd_eq])

/-- ENCRYPT leaves the schedule alone and reports a legal code (43_round_function.md R164). -/
theorem encryptCmd_sameSchedule (k : KeySize) (s : State) :
    SameSchedule s (encryptCmd k s) ∧ (encryptCmd k s).err.toNat ≤ 5 := by
  rcases encryptCmd_cases k s with ⟨-, h⟩ | ⟨-, -, h⟩ | ⟨-, -, h⟩ <;> rw [h]
  · exact ⟨⟨rfl, rfl, rfl⟩, commandError_code_le_five _⟩
  · exact ⟨⟨rfl, rfl, rfl⟩, commandError_code_le_five _⟩
  · exact ⟨⟨rfl, rfl, rfl⟩, by simp [errOk]⟩

/-- Every command keeps the invariant, a KEYSCHED with the key it reads as the new key. -/
theorem invFor_exec {g : Option (KeySize × List Word)} {i : Instr} {s t : State} (hi : InvFor g s)
    (h : exec i s = .next t) :
    InvFor ((i.keyschedSize.map fun k => (k, keyMaterial k s)).or g) t := by
  rcases exec_cases i s with ⟨k, rfl, hx⟩ | ⟨k, rfl, hx⟩ | ⟨bs, rfl, hx⟩ | ⟨bs, rfl, hx⟩ <;>
    cases h.symm.trans hx
  · rw [keyschedSize_keysched]
    exact invFor_keySchedCmd k s
  · rw [keyschedSize_encrypt]
    obtain ⟨hsame, herr⟩ := encryptCmd_sameSchedule k s
    exact invFor_of_sameSchedule hi hsame herr
  · exact invFor_of_sameSchedule hi ⟨rfl, rfl, rfl⟩ (by simp [errOk])
  · exact invFor_of_sameSchedule hi ⟨rfl, rfl, rfl⟩ (by simp [errOk])

/-- What waits on the bus does not matter to the invariant. -/
theorem invFor_setPending {g : Option (KeySize × List Word)} {s : State} (hi : InvFor g s)
    (q : List BusEvent) : InvFor g (s.setPending q) :=
  invFor_of_sameSchedule hi ⟨rfl, rfl, rfl⟩ hi.inv.err_legal

/-- What the block has answered does not matter to the invariant. -/
theorem invFor_answer {g : Option (KeySize × List Word)} {s : State} (hi : InvFor g s) (host : Nat)
    (d : AnswerData) : InvFor g (s.answer host d) :=
  invFor_of_sameSchedule hi ⟨rfl, rfl, rfl⟩ hi.inv.err_legal

/-- A host's write to a register other than CMD keeps the invariant. -/
theorem invFor_writeReg {g : Option (KeySize × List Word)} {s : State} (hi : InvFor g s) (r : Reg)
    (v : Word) : InvFor g (writeReg r v s) := by
  obtain ⟨-, -, hv, hz, he, -, hrk⟩ := writeReg_frame r v s
  exact invFor_of_sameSchedule hi ⟨hv, hz, hrk⟩ (he ▸ hi.inv.err_legal)

/-- A rejected command word keeps the invariant (60_exceptions.md R181). -/
theorem invFor_raiseError {g : Option (KeySize × List Word)} {s : State} (hi : InvFor g s)
    (e : CommandError) : InvFor g (raiseError e s) :=
  invFor_of_sameSchedule hi ⟨rfl, rfl, rfl⟩ (commandError_code_le_five e)

/-- A reset establishes the invariant, with no key, in whatever state it is served. -/
theorem invFor_resetBlock (s : State) : InvFor none (resetBlock s) :=
  invFor_of_sameSchedule invFor_reset ⟨rfl, rfl, rfl⟩ invFor_reset.inv.err_legal

/-- Every step keeps the invariant, the key changing as `lastKeyAfter` says. -/
theorem invFor_step {g : Option (KeySize × List Word)} {s t : State} (hi : InvFor g s)
    (h : step s = .next t) : InvFor (lastKeyAfter g s) t := by
  cases serves_of_step h with
  | idle hp => rwa [lastKeyAfter_idle hp]
  | reset hp =>
    rw [lastKeyAfter_reset hp]
    exact invFor_resetBlock _
  | read hp _ =>
    rw [lastKeyAfter_read hp]
    exact invFor_answer (invFor_setPending hi _) _ _
  | write hp _ h0 =>
    rw [lastKeyAfter_write hp h0]
    exact invFor_answer (invFor_writeReg (invFor_setPending hi _) _ _) _ _
  | command hp hd hx =>
    rw [lastKeyAfter_command hp hd]
    exact invFor_answer (invFor_exec (invFor_setPending hi _) hx) _ _
  | reject hp hd =>
    rw [lastKeyAfter_reject hp hd]
    exact invFor_answer (invFor_raiseError (invFor_setPending hi _) _) _ _

/-- Settles O52, by induction on the run: the invariant holds at reset, an arriving event does not matter to it,
and every step keeps it. -/
theorem reachableStatesHaveTheInvariant : Obligations.ReachableStatesHaveTheInvariant := by
  intro g s hr
  induction hr with
  | reset => exact invFor_reset
  | arrives e _ ih => exact invFor_setPending ih _
  | step _ h ih => exact invFor_step ih h

/-- Settles O20: the fields at reset as they stand, and the reads register by register. -/
theorem resetValues : Obligations.ResetValues := by
  refine ⟨rfl, rfl, rfl, rfl, fun r hr => ?_⟩
  cases r with
  | cap => exact absurd rfl hr
  | cmd | status | pAcc | pIn | reserved => rfl
  | blkIn j | blkOut j | key j | rk j => simp [readReg, State.reset]

end Sys2Proof.Proofs
end

section
/-! ## The opcode map

Which command words are legal (30_encoding.md R84), through the encoder: a word decodes to a command exactly when
it is that command's word, and the mask of the two rows with a byte selector clears that field. -/

namespace Sys2Proof.Proofs

open Sys2Proof.Machine Sys2Proof.Laws

theorem decode_encode (i : Instr) : decode (encode i) = .command i := by
  rw [decode, encode, fieldsOf_wordOfFields, (decodeFields_fields i).1]

theorem decode_eq_command_iff (c : Word) (i : Instr) : decode c = .command i ↔ c = encode i := by
  constructor
  · intro h
    rcases decodeFields_cases (fieldsOf c) with ⟨j, hj, hf⟩ | ⟨hj, -⟩ | ⟨hj, -⟩ | ⟨hj, -⟩ <;>
      cases h.symm.trans hj
    rw [encode, hf, wordOfFields_fieldsOf]
  · rintro rfl
    exact decode_encode i

theorem decode_rejects_iff (c : Word) : (∃ e, decode c = .reject e) ↔ ∀ i, decode c ≠ .command i := by
  cases decode c <;> simp

/-- A statement about every command is one about each row of the opcode map. -/
theorem forall_instr (P : Instr → Prop) :
    (∀ i, P i) ↔ P .keysched128 ∧ P .keysched192 ∧ P .keysched256 ∧ P .encrypt128 ∧ P .encrypt192 ∧
      P .encrypt256 ∧ (∀ bs, P (.encround bs)) ∧ ∀ bs, P (.encroundlast bs) := by
  constructor
  · intro h
    exact ⟨h _, h _, h _, h _, h _, h _, fun bs => h _, fun bs => h _⟩
  · rintro ⟨hk128, hk192, hk256, he128, he192, he256, hround, hlast⟩ i
    cases i with
    | encround bs => exact hround bs
    | encroundlast bs => exact hlast bs
    | _ => assumption

theorem encode_encround (bs : BitVec 2) : encode (.encround bs) = 0x00000003 ||| (bs.setWidth 32 <<< 8) := by
  revert bs; decide

theorem encode_encroundlast (bs : BitVec 2) :
    encode (.encroundlast bs) = 0x00000004 ||| (bs.setWidth 32 <<< 8) := by
  revert bs; decide

/-- The fields of a command word are its own: equal words have equal fields. -/
theorem wordOfFields_inj {f g : CmdFields} : wordOfFields f = wordOfFields g ↔ f = g :=
  (Function.LeftInverse.injective fieldsOf_wordOfFields).eq_iff

/-- The mask of ENCROUND and ENCROUNDLAST keeps every field but the byte selector. -/
theorem wordOfFields_and_mask (f : CmdFields) :
    wordOfFields f &&& 0xFFFFFCFF = wordOfFields { f with bs := 0 } := by
  have hmask : (0xFFFFFCFF : Word) =
      BitVec.allOnes 22 ++ 0#2 ++ BitVec.allOnes 2 ++ BitVec.allOnes 2 ++ BitVec.allOnes 4 := by decide
  rw [hmask]
  unfold wordOfFields
  rw [BitVec.and_append (w := 28), BitVec.and_append (w := 26), BitVec.and_append (w := 24),
    BitVec.and_append]
  simp only [BitVec.and_allOnes, BitVec.and_zero]
  rfl

/-- A word is that of a command with a byte selector exactly when its bits under the mask are the row's
pattern, the word with selector 0 (30_encoding.md R84). -/
theorem exists_selector_iff (make : BitVec 2 → Instr)
    (hmake : ∀ bs, (make bs).fields = { (make 0).fields with bs := bs }) (c : Word) :
    (∃ bs, decode c = .command (make bs)) ↔ c &&& 0xFFFFFCFF = encode (make 0) := by
  have hc : c &&& 0xFFFFFCFF = wordOfFields { fieldsOf c with bs := 0 } := by
    rw [← wordOfFields_and_mask, wordOfFields_fieldsOf]
  rw [hc, encode, wordOfFields_inj]
  simp only [decode_eq_command_iff, encode]
  constructor
  · rintro ⟨bs, rfl⟩
    rw [fieldsOf_wordOfFields, hmake bs, ← hmake 0]
  · intro h
    refine ⟨(fieldsOf c).bs, ?_⟩
    rw [hmake, ← h, wordOfFields_fieldsOf]

theorem exists_encround_iff (c : Word) :
    (∃ bs, decode c = .command (.encround bs)) ↔ c &&& 0xFFFFFCFF = 0x00000003 :=
  exists_selector_iff Instr.encround (fun _ => rfl) c

theorem exists_encroundlast_iff (c : Word) :
    (∃ bs, decode c = .command (.encroundlast bs)) ↔ c &&& 0xFFFFFCFF = 0x00000004 :=
  exists_selector_iff Instr.encroundlast (fun _ => rfl) c

/-- A word is an error exactly when no row of the opcode map covers it (30_encoding.md R84). -/
theorem decode_rejects_iff_uncovered (c : Word) :
    (∃ e, decode c = .reject e) ↔ ∀ r ∈ opcodeMap, c &&& r.mask ≠ r.pattern := by
  have hfull : c &&& 0xFFFFFFFF = c := BitVec.and_allOnes
  rw [decode_rejects_iff, forall_instr, ← not_exists, ← not_exists, exists_encround_iff,
    exists_encroundlast_iff]
  simp only [Ne, decode_eq_command_iff, opcodeMap, List.forall_mem_cons, hfull, List.not_mem_nil,
    false_imp_iff, implies_true, and_true]
  rfl

/-- Settles O2: each command's word by the encoder, the two families also by their mask, and the errors as the
words no row covers. -/
theorem legalCommandWordsAreThoseOfTheMap : Obligations.LegalCommandWordsAreThoseOfTheMap := fun c =>
  ⟨decode_eq_command_iff c _, decode_eq_command_iff c _, decode_eq_command_iff c _,
    decode_eq_command_iff c _, decode_eq_command_iff c _, decode_eq_command_iff c _,
    fun bs => encode_encround bs ▸ decode_eq_command_iff c _,
    fun bs => encode_encroundlast bs ▸ decode_eq_command_iff c _,
    exists_encround_iff c, exists_encroundlast_iff c, decode_rejects_iff_uncovered c⟩

end Sys2Proof.Proofs
end

section
/-! ## The classes of illegal command words

The checks of 30_encoding.md R82 in their order: the first that fails names the error, and the command ends with
its code and no other change (R85, 60_exceptions.md R181). -/

namespace Sys2Proof.Proofs

open Sys2Proof.Machine Sys2Proof.Laws

theorem execute_of_reject {c : Word} {e : CommandError} (h : decode c = .reject e) (s : State) :
    execute c s = .next { s with err := e.code } := by
  rw [execute, h]
  rfl

/-- The fields of a command pass each of the three checks. -/
theorem instr_fields_ok (i : Instr) :
    i.fields.opOk = true ∧ i.fields.reservedOk = true ∧ i.fields.fieldsOk = true := by
  simpa [CmdFields.wellFormed, and_assoc] using (decodeFields_fields i).2

section Checks

variable {f : CmdFields}

theorem decodeFields_illegalOp (hop : f.opOk = false) : decodeFields f = .reject .illegalOp := by
  rcases decodeFields_cases f with ⟨i, -, rfl⟩ | ⟨hd, -⟩ | ⟨-, hop', -⟩ | ⟨-, hop', -⟩
  · simp [instr_fields_ok i] at hop
  · exact hd
  · simp [hop] at hop'
  · simp [hop] at hop'

theorem decodeFields_reservedBits (hop : f.opOk = true) (hres : f.reservedOk = false) :
    decodeFields f = .reject .reservedBits := by
  rcases decodeFields_cases f with ⟨i, -, rfl⟩ | ⟨-, hop'⟩ | ⟨hd, -⟩ | ⟨-, -, hres', -⟩
  · simp [instr_fields_ok i] at hres
  · simp [hop] at hop'
  · exact hd
  · simp [hres] at hres'

theorem decodeFields_badField (hop : f.opOk = true) (hres : f.reservedOk = true)
    (hfld : f.fieldsOk = false) : decodeFields f = .reject .badField := by
  rcases decodeFields_cases f with ⟨i, -, rfl⟩ | ⟨-, hop'⟩ | ⟨-, -, hres'⟩ | ⟨hd, -⟩
  · simp [instr_fields_ok i] at hfld
  · simp [hop] at hop'
  · simp [hres] at hres'
  · exact hd

/-- The four operations are the codes 1 to 4 (30_encoding.md R78). -/
theorem opOk_iff : f.opOk = true ↔ 1 ≤ f.op.toNat ∧ f.op.toNat ≤ 4 := by
  have h : ∀ op : BitVec 4, (op == 1 || op == 2 || op == 3 || op == 4) = true ↔
      1 ≤ op.toNat ∧ op.toNat ≤ 4 := by decide
  exact h f.op

theorem reservedOk_iff : f.reservedOk = true ↔ f.resLow = 0 ∧ f.resHigh = 0 := by
  simp [CmdFields.reservedOk]

/-- A key-size command uses no byte selector and needs a key size that exists (30_encoding.md R79, R80). -/
theorem fieldsOk_sized (hop : f.op = 1 ∨ f.op = 2) : f.fieldsOk = true ↔ f.bs = 0 ∧ f.ksz ≠ 3 := by
  rw [CmdFields.fieldsOk, if_pos (by simpa using hop)]
  simp

/-- A primitive command uses no key size (30_encoding.md R79). -/
theorem fieldsOk_primitive (hop : f.op = 3 ∨ f.op = 4) : f.fieldsOk = true ↔ f.ksz = 0 := by
  have hsized : ¬ (f.op = 1 ∨ f.op = 2) := by rcases hop with h | h <;> rw [h] <;> decide
  rw [CmdFields.fieldsOk, if_neg (by simpa using hsized)]
  simp

theorem decodeFields_badField_of_sized (hop : f.op = 1 ∨ f.op = 2) (hlow : f.resLow = 0)
    (hhigh : f.resHigh = 0) (hbad : ¬ (f.bs = 0 ∧ f.ksz ≠ 3)) : decodeFields f = .reject .badField :=
  decodeFields_badField (opOk_iff.2 (by rcases hop with h | h <;> rw [h] <;> decide))
    (reservedOk_iff.2 ⟨hlow, hhigh⟩) (Bool.eq_false_iff.2 (mt (fieldsOk_sized hop).1 hbad))

theorem decodeFields_badField_of_primitive (hop : f.op = 3 ∨ f.op = 4) (hlow : f.resLow = 0)
    (hhigh : f.resHigh = 0) (hbad : f.ksz ≠ 0) : decodeFields f = .reject .badField :=
  decodeFields_badField (opOk_iff.2 (by rcases hop with h | h <;> rw [h] <;> decide))
    (reservedOk_iff.2 ⟨hlow, hhigh⟩) (Bool.eq_false_iff.2 (mt (fieldsOk_primitive hop).1 hbad))

end Checks

/-- Settles O4: each class fails the check that names its error and passes the checks before it. -/
theorem illegalWordClassesReportTheirCode : Obligations.IllegalWordClassesReportTheirCode := by
  intro c s
  refine ⟨fun hop => ?illegalOp, fun ⟨hlo, hhi, hres⟩ => ?reservedBits,
    fun ⟨hop, hlow, hhigh, hksz⟩ => ?keySize, fun ⟨hop, hlow, hhigh, hbs⟩ => ?selector,
    fun ⟨hop, hlow, hhigh, hksz⟩ => ?primitive⟩
  case illegalOp =>
    have hbad : ¬ (1 ≤ (c.extractLsb' 0 4).toNat ∧ (c.extractLsb' 0 4).toNat ≤ 4) := by
      rcases hop with h | h
      · rw [h]; decide
      · omega
    exact execute_of_reject (decodeFields_illegalOp (Bool.eq_false_iff.2 (mt opOk_iff.1 hbad))) s
  case reservedBits =>
    have hbad : (fieldsOf c).reservedOk = false :=
      Bool.eq_false_iff.2 (mt reservedOk_iff.1 (not_and_or.2 hres))
    exact execute_of_reject (decodeFields_reservedBits (opOk_iff.2 ⟨hlo, hhi⟩) hbad) s
  case keySize =>
    exact execute_of_reject (decodeFields_badField_of_sized hop hlow hhigh fun h => h.2 hksz) s
  case selector =>
    exact execute_of_reject (decodeFields_badField_of_sized hop hlow hhigh fun h => hbs h.1) s
  case primitive =>
    exact execute_of_reject (decodeFields_badField_of_primitive hop hlow hhigh hksz) s

end Sys2Proof.Proofs
end

section
/-! ## The laws of the primitives

What a call adds to the accumulator does not depend on the accumulator, so the calls of a sequence add up by XOR,
in any order (40_primitives.md R108). -/

namespace Sys2Proof.Proofs

open Sys2Proof.Machine Sys2Proof.Laws

theorem encRound_eq_xor (acc inp : Word) (b : BitVec 2) :
    encRound acc inp b = acc ^^^ encRound 0 inp b := by
  simp [encRound]

theorem encRoundLast_eq_xor (acc inp : Word) (b : BitVec 2) :
    encRoundLast acc inp b = acc ^^^ encRoundLast 0 inp b := by
  simp [encRoundLast]

/-- A call of either primitive XORs its contribution, what it makes of a zero accumulator, into the accumulator. -/
theorem primCall_run_eq_xor (acc : Word) (c : PrimCall) :
    PrimCall.run acc c = acc ^^^ PrimCall.run 0 c := by
  unfold PrimCall.run
  split
  · exact encRoundLast_eq_xor acc c.inp c.sel
  · exact encRound_eq_xor acc c.inp c.sel

theorem foldl_primCall_run (acc : Word) (calls : List PrimCall) :
    calls.foldl PrimCall.run acc = acc ^^^ (calls.map (PrimCall.run 0)).foldr (· ^^^ ·) 0 := by
  induction calls generalizing acc with
  | nil => exact BitVec.xor_zero.symm
  | cons c calls ih =>
    rw [List.foldl_cons, ih, primCall_run_eq_xor acc c, List.map_cons, List.foldr_cons, BitVec.xor_assoc]

/-- XOR commutes, so the order of the contributions does not matter. -/
theorem foldl_primCall_run_perm {calls calls' : List PrimCall} (h : calls.Perm calls') (acc : Word) :
    calls.foldl PrimCall.run acc = calls'.foldl PrimCall.run acc := by
  rw [foldl_primCall_run, foldl_primCall_run, (h.map _).foldr_eq]

/-- EncRound adds the MixColumns contribution of the substituted byte, row by row from `b` (40_primitives.md
R104). -/
theorem byteOf_encRound (acc inp : Word) (b r : BitVec 2) :
    byteOf (encRound acc inp b) (r + b) = byteOf acc (r + b) ^^^
      byteOf (wordOf (xtime (sbox (byteOf inp b))) (sbox (byteOf inp b)) (sbox (byteOf inp b))
        (mul3 (sbox (byteOf inp b)))) r := by
  rw [encRound, byteOf_xor, byteOf_mc]

/-- The row after `b` gets the plain substituted byte. -/
theorem byteOf_encRound_next (acc inp : Word) (b : BitVec 2) :
    byteOf (encRound acc inp b) (b + 1) = byteOf acc (b + 1) ^^^ sbox (byteOf inp b) := by
  rw [BitVec.add_comm, byteOf_encRound, byteOf_wordOf_one]

/-- EncRound reads byte `b` of its input and no other. -/
theorem encRound_congr {inp inp' : Word} {b : BitVec 2} (h : byteOf inp b = byteOf inp' b) (acc : Word) :
    encRound acc inp b = encRound acc inp' b := by
  rw [encRound, encRound, h]

/-- Settles O30: the first two laws by what a call XORs into the accumulator, the last two byte by byte. -/
theorem primitiveLaws : Obligations.PrimitiveLaws := by
  refine ⟨fun acc inp b => ?linearity, fun acc calls => ?order, fun inp b => ?locality, fun inp b => ?relation⟩
  case linearity => exact ⟨encRound_eq_xor acc inp b, encRoundLast_eq_xor acc inp b⟩
  case order => exact ⟨foldl_primCall_run acc calls, fun _ h => foldl_primCall_run_perm h acc⟩
  case locality =>
    exact ⟨fun k hk => (byteOf_encRoundLast_other 0 inp b k hk).trans (byteOf_zero k),
      fun _ h => encRound_congr h 0⟩
  case relation =>
    rw [byteOf_encRound_next, byteOf_encRoundLast_same]
    simp

end Sys2Proof.Proofs
end

section
/-! ## The S-box and the field inverse

Undoing the affine map on the table's entries leaves a function on bytes that is its own inverse and answers the
inverse in GF(2^8). So the table is the affine map of the field inverse, and no entry occurs twice
(40_primitives.md R100). -/

namespace Sys2Proof.Proofs

open Sys2Proof.Machine

/-- The inverse of the affine map of the S-box: `rotl8(z,1) XOR rotl8(z,3) XOR rotl8(z,6) XOR 0x05`. -/
def sboxAffineInverse (z : Byte) : Byte :=
  z.rotateLeft 1 ^^^ z.rotateLeft 3 ^^^ z.rotateLeft 6 ^^^ 0x05

/-- The S-box table with the affine map undone: the inverse in GF(2^8), as `isGfInverse_fieldInverse` proves. -/
def fieldInverse (x : Byte) : Byte := sboxAffineInverse (sbox x)

theorem sboxAffine_sboxAffineInverse (z : Byte) : sboxAffine (sboxAffineInverse z) = z := by
  revert z; decide

theorem sboxAffine_fieldInverse (x : Byte) : sboxAffine (fieldInverse x) = sbox x :=
  sboxAffine_sboxAffineInverse (sbox x)

theorem fieldInverse_involutive : Function.Involutive fieldInverse := by
  unfold Function.Involutive; decide

theorem fieldInverse_zero : fieldInverse 0 = 0 := by decide

/-- The table checked against the field product, for each of its 255 entries at a nonzero byte. -/
theorem gfMul_fieldInverse : ∀ x : Byte, x ≠ 0 → gfMul x (fieldInverse x) = 1 := by decide

theorem isGfInverse_fieldInverse (x : Byte) : IsGfInverse x (fieldInverse x) := by
  by_cases hx : x = 0
  · subst hx
    exact .inl ⟨rfl, fieldInverse_zero⟩
  · exact .inr ⟨hx, gfMul_fieldInverse x hx⟩

/-- Equal entries have equal field inverses, and those determine the index; the bytes are finitely many. -/
theorem sbox_bijective : Function.Bijective sbox :=
  Finite.injective_iff_bijective.1 (Function.Injective.of_comp (f := sboxAffineInverse)
    fieldInverse_involutive.injective)

/-- Settles O32: the inverse of `x` is the table's entry with the affine map undone. -/
theorem sboxIsTheAffineMapOfTheFieldInverse : Obligations.SboxIsTheAffineMapOfTheFieldInverse :=
  ⟨sbox_bijective, fun x => ⟨fieldInverse x, isGfInverse_fieldInverse x, (sboxAffine_fieldInverse x).symm⟩⟩

end Sys2Proof.Proofs
end

section
/-! ## The codec of byte arrays and words

A word and its four bytes determine each other, so the two directions undo each other chunk by chunk
(41_codec.md R122). Where a byte stands is read off in one direction, from words to bytes (R121); the round trip
carries it to the other (R120). -/

namespace Sys2Proof.Proofs

open Sys2Proof.Machine Sys2Proof.Laws

theorem bytesToWords_lanesOf_append (w : Word) (bs : List Byte) :
    bytesToWords (lanesOf w ++ bs) = w :: bytesToWords bs :=
  congrArg (· :: bytesToWords bs) (wordOf_byteOf w)

theorem lanesOf_wordOf (b0 b1 b2 b3 : Byte) : lanesOf (wordOf b0 b1 b2 b3) = [b0, b1, b2, b3] := by
  simp [lanesOf]

theorem bytesToWords_wordsToBytes (ws : List Word) : bytesToWords (wordsToBytes ws) = ws := by
  induction ws with
  | nil => rfl
  | cons w ws ih => rw [wordsToBytes, bytesToWords_lanesOf_append, ih]

/-- An array of whole words comes back; the bytes of an unfinished word would be lost. -/
theorem wordsToBytes_bytesToWords (b : List Byte) (hb : 4 ∣ b.length) : wordsToBytes (bytesToWords b) = b := by
  induction b using bytesToWords.induct with
  | case1 b0 b1 b2 b3 rest ih =>
    have hrest : 4 ∣ rest.length := (Nat.dvd_add_left (Nat.dvd_refl 4)).1 hb
    rw [bytesToWords, wordsToBytes, lanesOf_wordOf, ih hrest]
    rfl
  | case2 b hshort =>
    match b with
    | [] => rfl
    | [_] | [_, _] | [_, _, _] => simp at hb
    | b0 :: b1 :: b2 :: b3 :: rest => exact (hshort b0 b1 b2 b3 rest rfl).elim

theorem length_lanesOf (w : Word) : (lanesOf w).length = 4 := rfl

theorem length_wordsToBytes (ws : List Word) : (wordsToBytes ws).length = 4 * ws.length := by
  induction ws with
  | nil => rfl
  | cons w ws ih =>
    rw [wordsToBytes, List.length_append, length_lanesOf, ih, List.length_cons]
    omega

theorem getElem?_lanesOf (w : Word) {i : Nat} (hi : i < 4) :
    (lanesOf w)[i]? = some (byteOf w (BitVec.ofNat 2 i)) := by
  interval_cases i <;> rfl

/-- Byte `i` is byte `i mod 4` of word `i div 4`; past the end both sides are `none`. -/
theorem getElem?_wordsToBytes (ws : List Word) (i : Nat) :
    (wordsToBytes ws)[i]? = (ws[i / 4]?).map fun w => byteOf w (BitVec.ofNat 2 (i % 4)) := by
  induction ws generalizing i with
  | nil => rfl
  | cons w ws ih =>
    obtain hi | hi := Nat.lt_or_ge i 4
    · rw [wordsToBytes, List.getElem?_append_left hi, getElem?_lanesOf w hi, Nat.div_eq_of_lt hi,
        Nat.mod_eq_of_lt hi]
      rfl
    · obtain ⟨j, rfl⟩ := Nat.exists_eq_add_of_le' hi
      rw [wordsToBytes, List.getElem?_append_right hi, length_lanesOf, Nat.add_sub_cancel, ih,
        Nat.add_div_right j (by decide), Nat.add_mod_right, List.getElem?_cons_succ]

/-- Settles O53: each array of whole words comes back, of any length. -/
theorem codecRoundTrips : Obligations.CodecRoundTrips :=
  ⟨fun b hb => wordsToBytes_bytesToWords b (hb ▸ by decide), fun w _ => bytesToWords_wordsToBytes w⟩

/-- Settles O54: an array of `4n` bytes is what its words give back, so both directions are read off the bytes of
words. -/
theorem codecPlacesEachByte : Obligations.CodecPlacesEachByte := by
  refine ⟨fun n b hb => ?toWords, fun w hw => ⟨?length, fun i _ => getElem?_wordsToBytes w i⟩⟩
  case toWords =>
    have hback : wordsToBytes (bytesToWords b) = b := wordsToBytes_bytesToWords b ⟨n, hb⟩
    have hlen : b.length = 4 * (bytesToWords b).length := by rw [← length_wordsToBytes, hback]
    refine ⟨by omega, fun i _ => ?_⟩
    rw [← getElem?_wordsToBytes, hback]
  case length => rw [length_wordsToBytes, hw]

end Sys2Proof.Proofs
end

section
/-! ## The key schedule

The live words before update step `i` are the emitted words `Nk·i .. Nk·i + Nk - 1` (42_key_schedule.md R132), so
an update step is the flat recurrence over one block of `Nk` words (R142), and the loop emits a prefix of the
sequence of emitted words. -/

namespace Sys2Proof.Proofs

open Sys2Proof.Machine Sys2Proof.Laws

/-- The live words before update step `i` (42_key_schedule.md R132). -/
def liveWords (nk : Nat) (key : List Word) : Nat → List Word
  | 0 => key
  | i + 1 => updateStep nk i (liveWords nk key i)

/-- Emitted word `n`: word `n mod Nk` of the live words before update step `n div Nk`. -/
def emittedWord (nk : Nat) (key : List Word) (n : Nat) : Word := (liveWords nk key (n / nk)).getD (n % nk) 0

/-- The four calls of SubWord substitute one byte each (42_key_schedule.md R133). -/
theorem subWord_eq_subBytesWord (w : Word) : subWord w = subBytesWord w := by
  refine word_ext fun b => ?_
  revert b
  apply selector_cases <;>
    simp [subWord, subBytesWord, byteOf_encRoundLast_same, byteOf_encRoundLast_other]

theorem keySize_nk_pos (k : KeySize) : 0 < k.nk := by cases k <;> decide

theorem keySize_nk_le_scheduleWords (k : KeySize) : k.nk ≤ k.scheduleWords := by cases k <;> decide

/-- The loop's bound suffices: `STEPS + 1` iterations emit all the words needed (42_key_schedule.md R137). -/
theorem keySize_scheduleWords_le (k : KeySize) : k.scheduleWords ≤ k.nk * (k.steps + 1) := by cases k <;> decide

section
variable {nk : Nat} {key : List Word}

theorem length_liveWords (i : Nat) : (liveWords nk key i).length = key.length := by
  induction i with
  | zero => rfl
  | succ i ih => rw [liveWords, updateStep_length, ih]

theorem emittedWord_of_lt {n : Nat} (hn : n < nk) : emittedWord nk key n = key.getD n 0 := by
  rw [emittedWord, Nat.div_eq_of_lt hn, Nat.mod_eq_of_lt hn, liveWords]

variable (hkey : key.length = nk)
include hkey

theorem emittedWord_mul_add (i : Nat) {j : Nat} (hj : j < nk) :
    emittedWord nk key (nk * i + j) = (liveWords nk key i)[j]'(by rwa [length_liveWords, hkey]) := by
  rw [emittedWord, Nat.mul_add_div (by omega), Nat.mul_add_mod, Nat.div_eq_of_lt hj, Nat.mod_eq_of_lt hj,
    Nat.add_zero, List.getD_eq_getElem]

theorem liveWords_eq_map_emittedWord (i : Nat) :
    liveWords nk key i = (List.range nk).map fun j => emittedWord nk key (nk * i + j) := by
  refine List.ext_getElem (by simp [length_liveWords, hkey]) fun j _ hj => ?_
  rw [List.getElem_map, List.getElem_range, emittedWord_mul_add hkey i (by simpa using hj)]

/-- The first word of a block takes the last word before it through RotWord, SubWord and the constant
(42_key_schedule.md R135). -/
theorem emittedWord_block_first (hnk : 0 < nk) (i : Nat) :
    emittedWord nk key (nk * (i + 1)) =
      emittedWord nk key (nk * i) ^^^
        (subBytesWord (rotWord (emittedWord nk key (nk * (i + 1) - 1))) ^^^ (rcon i).setWidth 32) := by
  have hlen : (liveWords nk key i).length = nk := by rw [length_liveWords, hkey]
  have hlast : nk * (i + 1) - 1 = nk * i + (nk - 1) := by rw [Nat.mul_succ]; omega
  have hfirst := emittedWord_mul_add hkey i hnk
  have hnew := emittedWord_mul_add hkey (i + 1) hnk
  rw [Nat.add_zero] at hfirst hnew
  rw [hnew, hfirst, hlast, emittedWord_mul_add hkey i (by omega)]
  simp only [liveWords]
  rw [updateStep_zero _ _ _ (by omega), updateFirst, subWord_eq_subBytesWord, BitVec.xor_assoc]
  simp only [hlen]

/-- A later word of a block takes the word before it, word 4 of AES-256 through SubWord (42_key_schedule.md
R136). -/
theorem emittedWord_block_succ (i : Nat) {j : Nat} (hj : j + 1 < nk) :
    emittedWord nk key (nk * (i + 1) + (j + 1)) =
      emittedWord nk key (nk * i + (j + 1)) ^^^
        (if nk = 8 ∧ j + 1 = 4 then subBytesWord (emittedWord nk key (nk * (i + 1) + j))
          else emittedWord nk key (nk * (i + 1) + j)) := by
  have hlen : (liveWords nk key i).length = nk := by rw [length_liveWords, hkey]
  rw [emittedWord_mul_add hkey _ hj, emittedWord_mul_add hkey _ hj, emittedWord_mul_add hkey _ (by omega)]
  simp only [liveWords]
  rw [updateStep_succ _ _ _ _ (by omega), subWord_eq_subBytesWord]

/-- Every iteration appends one block of emitted words, and the loop stops only at its exit or for want of
iterations. -/
theorem expandLoop_eq_map_emittedWord (need n i : Nat) :
    ∃ m, min need (nk * (i + n)) ≤ m ∧
      expandLoop nk need n i (liveWords nk key i) ((List.range (nk * i)).map (emittedWord nk key)) =
        (List.range m).map (emittedWord nk key) := by
  induction n generalizing i with
  | zero => exact ⟨nk * i, Nat.min_le_right _ _, rfl⟩
  | succ n ih =>
    have hemit : (List.range (nk * i)).map (emittedWord nk key) ++ liveWords nk key i =
        (List.range (nk * (i + 1))).map (emittedWord nk key) := by
      rw [Nat.mul_succ, List.range_add, List.map_append, List.map_map, liveWords_eq_map_emittedWord hkey]
      rfl
    simp only [expandLoop, hemit, List.length_map, List.length_range]
    split
    case isTrue hexit => exact ⟨nk * (i + 1), (Nat.min_le_left _ _).trans hexit, rfl⟩
    case isFalse => simpa only [liveWords, Nat.succ_add_eq_add_succ] using ih (i + 1)

end

/-- `Nk` divides the index of a block's first word. -/
theorem flatTerm_block_first (k : KeySize) (i : Nat) (before : Word) :
    flatTerm k (k.nk * (i + 1)) before = subBytesWord (rotWord before) ^^^ (rcon i).setWidth 32 := by
  rw [flatTerm, if_pos (Nat.mul_mod_right _ _), Nat.mul_div_cancel_left _ (keySize_nk_pos k), Nat.add_sub_cancel]

/-- In a block of AES-256 word 4 is where `n mod 8 = 4`. -/
theorem flatTerm_block_succ {k : KeySize} (i : Nat) {j : Nat} (hj : j + 1 < k.nk) (before : Word) :
    flatTerm k (k.nk * (i + 1) + (j + 1)) before =
      if k.nk = 8 ∧ j + 1 = 4 then subBytesWord before else before := by
  have hmod : (k.nk * (i + 1) + (j + 1)) % k.nk = j + 1 := by rw [Nat.mul_add_mod, Nat.mod_eq_of_lt hj]
  have hword4 : k.nk = 8 ∧ (k.nk * (i + 1) + (j + 1)) % 8 = 4 ↔ k.nk = 8 ∧ j + 1 = 4 :=
    and_congr_right fun h8 => by rw [h8] at hmod ⊢; rw [hmod]
  rw [flatTerm, hmod, if_neg (Nat.succ_ne_zero j)]
  simp only [hword4]

section
variable {k : KeySize} {key : List Word} (hkey : key.length = k.nk)
include hkey

/-- The emitted words satisfy the flat recurrence without end (42_key_schedule.md R142). -/
theorem emittedWord_flatRecurrence {n : Nat} (hn : k.nk ≤ n) :
    emittedWord k.nk key n =
      emittedWord k.nk key (n - k.nk) ^^^ flatTerm k n (emittedWord k.nk key (n - 1)) := by
  have hpos := keySize_nk_pos k
  obtain ⟨i, j, hj, rfl⟩ : ∃ i j, j < k.nk ∧ n = k.nk * (i + 1) + j := by
    obtain ⟨i, hi⟩ := Nat.exists_eq_add_of_le' (Nat.div_pos hn hpos)
    exact ⟨i, n % k.nk, Nat.mod_lt n hpos, by rw [← hi, Nat.div_add_mod]⟩
  have hback : k.nk * (i + 1) + j - k.nk = k.nk * i + j := by rw [Nat.mul_succ]; omega
  rw [hback]
  cases j with
  | zero =>
    rw [Nat.add_zero, Nat.add_zero, flatTerm_block_first]
    exact emittedWord_block_first hkey hpos i
  | succ j =>
    rw [flatTerm_block_succ i hj]
    exact emittedWord_block_succ hkey i hj

/-- KeyExpand gives the first `4(Nr+1)` emitted words (42_key_schedule.md R132, R137). -/
theorem keyExpand_eq_map_emittedWord :
    keyExpand k key = (List.range k.scheduleWords).map (emittedWord k.nk key) := by
  obtain ⟨m, hm, hloop⟩ := expandLoop_eq_map_emittedWord hkey k.scheduleWords (k.steps + 1) 0
  rw [Nat.zero_add, Nat.min_eq_left (keySize_scheduleWords_le k)] at hm
  rw [keyExpand]
  simp only [liveWords, Nat.mul_zero, List.range_zero, List.map_nil] at hloop
  rw [hloop, ← List.map_take, List.take_range, Nat.min_eq_left hm]

theorem keyExpand_getD {n : Nat} (hn : n < k.scheduleWords) :
    (keyExpand k key).getD n 0 = emittedWord k.nk key n := by
  rw [keyExpand_eq_map_emittedWord hkey, List.getD_eq_getElem _ _ (by simpa using hn), List.getElem_map,
    List.getElem_range]

end

/-- Settles O38: KeyExpand gives the first emitted words, and the emitted words satisfy the recurrence. -/
theorem keyExpandIsTheFlatRecurrence : Obligations.KeyExpandIsTheFlatRecurrence := by
  intro k key hkey
  refine ⟨?length, fun n hn => ?keyWords, fun n hn hend => ?recurrence⟩
  case length => rw [keyExpand_eq_map_emittedWord hkey, List.length_map, List.length_range]
  case keyWords =>
    have hend : n < k.scheduleWords := hn.trans_le (keySize_nk_le_scheduleWords k)
    exact (keyExpand_getD hkey hend).trans (emittedWord_of_lt hn)
  case recurrence =>
    beta_reduce
    rw [keyExpand_getD hkey hend, keyExpand_getD hkey (by omega), keyExpand_getD hkey (by omega)]
    exact emittedWord_flatRecurrence hkey hn

theorem exec_keysched (k : KeySize) (s : State) : exec (Instr.keysched k) s = .next (keySchedCmd k s) := by
  cases k <;> rfl

/-- Settles O40: each command is the KEYSCHED of its size, whose effect is KeySchedCmd's, field by field. -/
theorem keyschedEffect : Obligations.KeyschedEffect := by
  intro s p hp
  obtain ⟨k, rfl⟩ : ∃ k, p = (Instr.keysched k, k) := by
    obtain rfl | rfl | rfl : p = _ ∨ p = _ ∨ p = _ := by simpa using hp
    exacts [⟨.k128, rfl⟩, ⟨.k192, rfl⟩, ⟨.k256, rfl⟩]
  refine ⟨scheduleRegs k (keyExpand k (keyMaterial k s)), ?effect, fun n => ?words⟩
  case effect => rw [exec_keysched, keySchedCmd_eq]
  case words => exact scheduleRegs_getElem k _ n n.isLt

end Sys2Proof.Proofs
end

section
/-! ## ENCRYPT

The two checks and the encryption exclude each other, so each names the whole state after the command
(43_round_function.md R164). -/

namespace Sys2Proof.Proofs

open Sys2Proof.Machine Sys2Proof.Laws

theorem exec_encrypt (k : KeySize) (s : State) : exec (Instr.encrypt k) s = .next (encryptCmd k s) := by
  cases k <;> rfl

/-- Settles O44: each command is the ENCRYPT of its size, and in each outcome of EncryptCmd only the clause of
that outcome has its hypotheses. -/
theorem encryptChecksThenEncrypts : Obligations.EncryptChecksThenEncrypts := by
  intro s p hp
  obtain ⟨k, -, rfl⟩ := (List.mem_map (f := fun k => (Instr.encrypt k, k)) (l := [.k128, .k192, .k256])).1 hp
  rw [exec_encrypt]
  rcases encryptCmd_cases k s with ⟨hv, h⟩ | ⟨hv, hz, h⟩ | ⟨hv, hz, h⟩ <;> rw [h]
  case inl => exact ⟨fun _ => rfl, by simp [hv], by simp [hv]⟩
  case inr.inl => exact ⟨by simp [hv], fun _ _ => rfl, fun _ hz' => absurd hz' hz⟩
  case inr.inr => exact ⟨by simp [hv], fun _ hz' => absurd hz hz', fun _ _ => rfl⟩

end Sys2Proof.Proofs
end

section
/-! ## Command errors

A command word fails a check of 30_encoding.md R82, or its command fails a check of its own, or it succeeds: the
first failed check names the one code reported, and only STATUS.ERR changes (60_exceptions.md R181, R183, R184). -/

namespace Sys2Proof.Proofs

open Sys2Proof.Machine Sys2Proof.Laws

theorem execute_of_command {c : Word} {i : Instr} (h : decode c = .command i) (s : State) :
    execute c s = exec i s := by
  rw [execute, h]

@[simp] theorem encrypt_fields_op (k : KeySize) : (Instr.encrypt k).fields.op = 2 := by cases k <;> rfl

@[simp] theorem encrypt_fields_ksz (k : KeySize) : (Instr.encrypt k).fields.ksz = k.code := by cases k <;> rfl

@[simp] theorem keysched_fields_op (k : KeySize) : (Instr.keysched k).fields.op = 1 := by cases k <;> rfl

/-- The causes 4 and 5 are ENCRYPT's, in that order; without them a command ends with ERR 0. -/
theorem exec_raises_or_succeeds (i : Instr) (s : State) :
    (i.fields.op = 2 ∧ s.ksValid = false ∧ exec i s = .next (raiseError .noSchedule s)) ∨
    (i.fields.op = 2 ∧ s.ksValid = true ∧ s.ksSize ≠ i.fields.ksz ∧
      exec i s = .next (raiseError .sizeMismatch s)) ∨
    ((i.fields.op = 2 → s.ksValid = true ∧ s.ksSize = i.fields.ksz) ∧
      ∃ t, exec i s = .next t ∧ t.err = 0) := by
  rcases exec_cases i s with ⟨k, rfl, h⟩ | ⟨k, rfl, h⟩ | ⟨bs, rfl, h⟩ | ⟨bs, rfl, h⟩
  case inl => exact .inr (.inr ⟨by simp, _, h, by simp [keySchedCmd_eq]⟩)
  case inr.inl =>
    rcases encryptCmd_cases k s with ⟨hv, he⟩ | ⟨hv, hz, he⟩ | ⟨hv, hz, he⟩ <;> rw [he] at h
    · exact .inl ⟨encrypt_fields_op k, hv, h⟩
    · exact .inr (.inl ⟨encrypt_fields_op k, hv, by simpa using hz, h⟩)
    · exact .inr (.inr ⟨fun _ => ⟨hv, by simpa using hz⟩, _, h, rfl⟩)
  case inr.inr.inl => exact .inr (.inr ⟨by simp [Instr.fields], _, h, rfl⟩)
  case inr.inr.inr => exact .inr (.inr ⟨by simp [Instr.fields], _, h, rfl⟩)

/-- The field check as a bound on the operation code: what a key-size command and what a primitive must not
hold (30_encoding.md R79, R80). -/
theorem fieldsOk_iff_of_opOk {f : CmdFields} (hop : f.opOk = true) :
    f.fieldsOk = true ↔
      ¬ (f.op.toNat ≤ 2 ∧ (f.bs ≠ 0 ∨ f.ksz = 0b11)) ∧ ¬ (3 ≤ f.op.toNat ∧ f.ksz ≠ 0) := by
  have hcases : (f.op = 1 ∨ f.op = 2) ∨ (f.op = 3 ∨ f.op = 4) := by
    simpa [CmdFields.opOk, or_assoc] using hop
  rcases hcases with hsized | hprim
  · have hle : f.op.toNat ≤ 2 := by rcases hsized with h | h <;> rw [h] <;> decide
    simp [fieldsOk_sized hsized, hle, show ¬ 3 ≤ f.op.toNat by omega]
  · have hge : 3 ≤ f.op.toNat := by rcases hprim with h | h <;> rw [h] <;> decide
    simp [fieldsOk_primitive hprim, hge, show ¬ f.op.toNat ≤ 2 by omega]

/-- The chain of R183 and R184 over a command word's fields. -/
def firstCause (f : CmdFields) (s : State) : BitVec 4 :=
  if ¬ (1 ≤ f.op.toNat ∧ f.op.toNat ≤ 4) then 1
  else if f.resLow ≠ 0 ∨ f.resHigh ≠ 0 then 2
  else if f.op.toNat ≤ 2 ∧ (f.bs ≠ 0 ∨ f.ksz = 0b11) then 3
  else if 3 ≤ f.op.toNat ∧ f.ksz ≠ 0 then 3
  else if f.op = 2 ∧ s.ksValid = false then 4
  else if f.op = 2 ∧ s.ksSize ≠ f.ksz then 5
  else 0

section Causes

variable {f : CmdFields} {s : State}

theorem firstCause_illegalOp (hop : f.opOk = false) : firstCause f s = CommandError.illegalOp.code :=
  if_pos (mt opOk_iff.2 (Bool.eq_false_iff.1 hop))

theorem firstCause_reservedBits (hop : f.opOk = true) (hres : f.reservedOk = false) :
    firstCause f s = CommandError.reservedBits.code := by
  have hbad := not_and_or.1 (mt reservedOk_iff.2 (Bool.eq_false_iff.1 hres))
  rw [firstCause, if_neg (not_not.2 (opOk_iff.1 hop)), if_pos hbad]
  rfl

theorem firstCause_badField (hop : f.opOk = true) (hres : f.reservedOk = true) (hfld : f.fieldsOk = false) :
    firstCause f s = CommandError.badField.code := by
  have hbad := mt (fieldsOk_iff_of_opOk hop).2 (Bool.eq_false_iff.1 hfld)
  rw [firstCause, if_neg (not_not.2 (opOk_iff.1 hop)), if_neg (by simp [reservedOk_iff.1 hres])]
  split
  · rfl
  · rename_i hsized
    exact if_pos (by_contra fun hprim => hbad ⟨hsized, hprim⟩)

/-- Where the word is legal only ENCRYPT's own causes are left. -/
theorem firstCause_of_legal (hop : f.opOk = true) (hres : f.reservedOk = true) (hfld : f.fieldsOk = true) :
    firstCause f s =
      if f.op = 2 ∧ s.ksValid = false then 4 else if f.op = 2 ∧ s.ksSize ≠ f.ksz then 5 else 0 := by
  obtain ⟨hsized, hprim⟩ := (fieldsOk_iff_of_opOk hop).1 hfld
  rw [firstCause, if_neg (not_not.2 (opOk_iff.1 hop)), if_neg (by simp [reservedOk_iff.1 hres]),
    if_neg hsized, if_neg hprim]

end Causes

/-- A command reports the first cause its fields leave. -/
theorem exec_reports_firstCause (i : Instr) (s : State) :
    ∃ t, exec i s = .next t ∧ t.err = firstCause i.fields s := by
  obtain ⟨hop, hres, hfld⟩ := instr_fields_ok i
  rw [firstCause_of_legal hop hres hfld]
  rcases exec_raises_or_succeeds i s with ⟨hop2, hv, hx⟩ | ⟨hop2, hv, hz, hx⟩ | ⟨hok, t, hx, ht⟩
  · exact ⟨_, hx, (if_pos ⟨hop2, hv⟩).symm⟩
  · exact ⟨_, hx, by simp [hop2, hv, hz, CommandError.code]⟩
  · have hvalid : ¬ (i.fields.op = 2 ∧ s.ksValid = false) := fun ⟨hop2, hv⟩ => by simp [hok hop2] at hv
    have hsize : ¬ (i.fields.op = 2 ∧ s.ksSize ≠ i.fields.ksz) := fun ⟨hop2, hz⟩ => hz (hok hop2).2
    exact ⟨t, hx, by rw [if_neg hvalid, if_neg hsize, ht]⟩

/-- Settles O5: the decoder's checks are the causes 1 to 3 in their order, and the causes 4 and 5 are left to
the command. -/
theorem commandReportsTheFirstCause : Obligations.CommandReportsTheFirstCause := by
  intro c s
  change ∃ t, execute c s = .next t ∧ t.err = firstCause (fieldsOf c) s
  rcases decodeFields_cases (fieldsOf c) with
    ⟨i, hd, hi⟩ | ⟨hd, hop⟩ | ⟨hd, hop, hres⟩ | ⟨hd, hop, hres, hfld⟩
  · rw [execute_of_command hd, ← hi]
    exact exec_reports_firstCause i s
  · exact ⟨_, execute_of_reject hd s, (firstCause_illegalOp hop).symm⟩
  · exact ⟨_, execute_of_reject hd s, (firstCause_reservedBits hop hres).symm⟩
  · exact ⟨_, execute_of_reject hd s, (firstCause_badField hop hres hfld).symm⟩

/-- Settles O6: a rejected word and a failed check of ENCRYPT only raise an error, and whatever else a command
does ends with ERR 0. -/
theorem commandErrorChangesOnlyErr : Obligations.CommandErrorChangesOnlyErr := by
  intro c s t ht herr
  cases hd : decode c with
  | reject e =>
    cases ht.symm.trans (execute_of_reject hd s)
    rfl
  | command i =>
    rw [execute_of_command hd] at ht
    rcases exec_raises_or_succeeds i s with ⟨-, -, hx⟩ | ⟨-, -, -, hx⟩ | ⟨-, t', hx, h0⟩ <;>
      cases ht.symm.trans hx
    · rfl
    · rfl
    · exact absurd h0 herr

end Sys2Proof.Proofs
end

section
/-! ## The invariant and the decoder, settled

What the sections above prove of the decoder and of one step, as the statements ask for it. -/

namespace Sys2Proof.Proofs

open Sys2Proof.Machine

/-- Settles O1: the decoder's checks pass exactly on the encoder's words. -/
theorem decodeReadsExactlyTheEncodedWord : Obligations.DecodeReadsExactlyTheEncodedWord :=
  decode_eq_command_iff

/-- Settles O3: each word is decoded by the kernel. -/
theorem sampleWordsDecodeAsWrittenOut : Obligations.SampleWordsDecodeAsWrittenOut := by
  unfold Obligations.SampleWordsDecodeAsWrittenOut
  decide

/-- The invariant names no key, but there is always one it holds for: the key of item 2, or none. -/
theorem exists_invFor_of_inv {s : State} (hi : Inv s) : ∃ g, InvFor g s := by
  cases hv : s.ksValid with
  | false => exact ⟨none, invFor_none hv hi.ksSize_legal (hi.no_schedule hv) hi.err_legal⟩
  | true =>
    obtain ⟨k, key, hz, hk⟩ := hi.schedule hv
    exact ⟨some (k, key), invFor_some hv hz hk hi.err_legal⟩

/-- Settles O51: the form with a named key is kept by every step, and the form without one is that form for
some key. -/
theorem everyStepKeepsTheInvariant : Obligations.EveryStepKeepsTheInvariant := by
  refine ⟨fun s t hi h => ?_, fun _ _ _ hi h => invFor_step hi h, fun _ _ _ hi => invFor_setPending hi _⟩
  obtain ⟨g, hg⟩ := exists_invFor_of_inv hi
  exact (invFor_step hg h).inv

/-- Settles O50: the reset state has the invariant for no key, and so the one that names no key. -/
theorem resetHasTheInvariant : Obligations.ResetHasTheInvariant := ⟨invFor_reset.inv, invFor_reset⟩

end Sys2Proof.Proofs
end

section
/-! ## The register map

What a register reads after a host's write, which registers ignore one, and where the map leaves no register
(20_memory.md R52, R56 to R58). -/

namespace Sys2Proof.Proofs

open Sys2Proof.Machine Sys2Proof.Laws

theorem readReg_writeReg_same {r : Reg} (hr : r.hostWritable = true) (v : Word) (s : State) :
    readReg r (writeReg r v s) = v := by
  cases r with
  | pAcc | pIn => rfl
  | blkIn j | key j => simp [readReg, writeReg]
  | cmd | status | cap | blkOut j | rk j | reserved => cases hr

theorem readReg_writeReg_other {r r' : Reg} (hne : r ≠ r') (v : Word) (s : State) :
    readReg r (writeReg r' v s) = readReg r s := by
  cases r' with
  | cmd | status | cap | blkOut _ | rk _ | reserved => rfl
  | pAcc => cases r with
    | pAcc => exact absurd rfl hne
    | _ => rfl
  | pIn => cases r with
    | pIn => exact absurd rfl hne
    | _ => rfl
  | blkIn j => cases r with
    | blkIn i =>
      have hij : j.val ≠ i.val := fun h => hne (by rw [Fin.ext h])
      simp [readReg, writeReg, hij]
    | _ => rfl
  | key j => cases r with
    | key i =>
      have hij : j.val ≠ i.val := fun h => hne (by rw [Fin.ext h])
      simp [readReg, writeReg, hij]
    | _ => rfl

/-- A read-only register, CMD and a reserved offset ignore the plain register write (20_memory.md R56, R57). -/
theorem writeReg_of_not_hostWritable {r : Reg} (hr : r.hostWritable = false) (v : Word) (s : State) :
    writeReg r v s = s := by
  cases r with
  | cmd | status | cap | blkOut _ | rk _ | reserved => rfl
  | pAcc | pIn | blkIn _ | key _ => cases hr

theorem offset_ne_zero_of_hostWritable {off : BitVec 9} (h : (regAt off).hostWritable = true) : off ≠ 0 := by
  rintro rfl
  cases h

theorem regAt_blkIn (j : Fin 4) : regAt (BitVec.ofNat 9 (0x020 + 4 * j.val)) = .blkIn j :=
  regAt_offset _ _ rfl

theorem regAt_blkOut (j : Fin 4) : regAt (BitVec.ofNat 9 (0x030 + 4 * j.val)) = .blkOut j :=
  regAt_offset _ _ rfl

theorem regAt_key (k : Fin 8) : regAt (BitVec.ofNat 9 (0x040 + 4 * k.val)) = .key k :=
  regAt_offset _ _ rfl

theorem regAt_rk (n : Fin 60) : regAt (BitVec.ofNat 9 (0x100 + 4 * n.val)) = .rk n :=
  regAt_offset _ _ rfl

/-- The aligned offsets the map leaves without a register (20_memory.md R52). -/
theorem regAt_reserved : ∀ off : BitVec 9, off.toNat % 4 = 0 →
    (off.toNat = 0x00C ∨ (0x018 ≤ off.toNat ∧ off.toNat ≤ 0x01C) ∨
      (0x060 ≤ off.toNat ∧ off.toNat ≤ 0x0FC) ∨ 0x1F0 ≤ off.toNat) → regAt off = .reserved := by
  decide

/-- The offsets whose register ignores a write (20_memory.md R56 to R58). -/
theorem regAt_not_hostWritable : ∀ off : BitVec 9, off.toNat % 4 = 0 →
    (off.toNat = 0x004 ∨ off.toNat = 0x008 ∨ off.toNat = 0x00C ∨
      (0x018 ≤ off.toNat ∧ off.toNat ≤ 0x01C) ∨ (0x030 ≤ off.toNat ∧ off.toNat ≤ 0x03C) ∨
      0x060 ≤ off.toNat) → (regAt off).hostWritable = false := by
  decide

theorem regWrite_of_ne_zero {off : BitVec 9} (h0 : off ≠ 0) (v : Word) (s : State) :
    regWrite off v s = .next (writeReg (regAt off) v s) := by
  rw [regWrite_eq, if_neg h0]

theorem regWrite_of_regAt {off : BitVec 9} {r : Reg} (hr : regAt off = r) (hw : r.hostWritable = true) (v : Word)
    (s : State) : regWrite off v s = .next (writeReg r v s) := by
  subst hr
  exact regWrite_of_ne_zero (offset_ne_zero_of_hostWritable hw) v s

theorem regRead_of_regAt {off : BitVec 9} {r : Reg} (hr : regAt off = r) (s : State) :
    regRead off s = readReg r s := by
  rw [regRead, hr]

/-- Settles O12: the register at each offset, and what it reads. -/
theorem registerReadReturns : Obligations.RegisterReadReturns := fun _ =>
  ⟨rfl, rfl, rfl, rfl, rfl, fun j => regRead_of_regAt (regAt_blkIn j) _,
    fun j => regRead_of_regAt (regAt_blkOut j) _, fun k => regRead_of_regAt (regAt_key k) _,
    fun n => regRead_of_regAt (regAt_rk n) _,
    fun off ha ho => regRead_of_regAt (regAt_reserved off ha ho) _⟩

/-- Settles O13: the register at each offset, and what it makes of a write. -/
theorem registerWriteDoes : Obligations.RegisterWriteDoes := by
  intro s v
  refine ⟨rfl, rfl, rfl, fun j => regWrite_of_regAt (regAt_blkIn j) rfl v s,
    fun k => regWrite_of_regAt (regAt_key k) rfl v s, fun off ha ho => ?_⟩
  have h0 : off ≠ 0 := by
    rintro rfl
    simp at ho
  rw [regWrite_of_ne_zero h0, writeReg_of_not_hostWritable (regAt_not_hostWritable off ha ho)]

end Sys2Proof.Proofs
end

section
/-! ## The address window

The base is a multiple of 512 that nothing else is known of, and an offset is what is left of an address above it
(20_memory.md R51). -/

namespace Sys2Proof.Proofs

open Sys2Proof.Machine

theorem offsetOf_inside {a : Nat} (hlo : Config.base ≤ a) (hhi : a ≤ Config.base + 0x1FF) :
    offsetOf a = some (BitVec.ofNat 9 (a - Config.base)) := by
  rw [offsetOf, if_pos ⟨hlo, by rw [Config.windowBytes]; omega⟩]

theorem offsetOf_outside {a : Nat} (ha : a < Config.base ∨ Config.base + 0x1FF < a) : offsetOf a = none := by
  rw [offsetOf, if_neg (by rw [Config.windowBytes]; omega)]

/-- Settles O11: inside the window the difference to the base fits nine bits, outside there is no offset. -/
theorem windowIsFiveHundredTwelveBytesAtTheBase : Obligations.WindowIsFiveHundredTwelveBytesAtTheBase := by
  refine ⟨Nat.mul_mod_right _ _, fun a hlo hhi => ?inside, fun a ha h n kind s => ?outside⟩
  case inside =>
    refine ⟨_, offsetOf_inside hlo hhi, ?_, fun h n kind s => ?_⟩
    · rw [BitVec.toNat_ofNat, Nat.mod_eq_of_lt (by omega)]
    · rw [State.hostAccess, offsetOf_inside hlo hhi]
  case outside => rw [State.hostAccess, offsetOf_outside ha]

end Sys2Proof.Proofs
end

section
/-! ## Serving one event

What a step does with the event at the head of the queue: an access of another width or alignment is the bus
error, any other is served and answered, a reset gives every register its reset value (20_memory.md R55, R61;
70_reset_and_hazards.md R210). -/

namespace Sys2Proof.Proofs

open Sys2Proof.Machine Sys2Proof.Laws

theorem step_of_access {s : State} {a : Access} {rest : List BusEvent} (hp : s.pending = .access a :: rest) :
    step s = serve a (s.setPending rest) := by
  rw [step, serveNext, hp]

theorem step_of_reset {s : State} {rest : List BusEvent} (hp : s.pending = .reset :: rest) :
    step s = .next (resetBlock (s.setPending rest)) := by
  rw [step, serveNext, hp]

/-- The width and alignment of R55, in the terms of the offset's value. -/
theorem wellFormed_eq_false_iff (a : Access) : a.wellFormed = false ↔ a.bytes ≠ 4 ∨ a.off.toNat % 4 ≠ 0 := by
  rw [← access_rejected_iff, Ne, Ne, Ne, offset_aligned_iff]

theorem serve_of_not_wellFormed {a : Access} (ha : a.wellFormed = false) (s : State) :
    serve a s = .fault (.busError (addressOf a.off)) := by
  rw [serve, if_pos ((access_rejected_iff a).2 ha)]

theorem step_of_idle {s : State} (hp : s.pending = []) : step s = .next s := by
  rw [step, serveNext, hp]

theorem serve_of_read {a : Access} {s : State} (hw : a.wellFormed = true) (hk : a.kind = .read) :
    serve a s = .next (s.answer a.host (.readData (regRead a.off s))) := by
  rw [serve, if_neg (by rw [access_rejected_iff, hw]; decide), hk]

theorem serve_of_write {a : Access} {s t : State} {v : Word} (hw : a.wellFormed = true) (hk : a.kind = .write v)
    (ht : regWrite a.off v s = .next t) : serve a s = .next (t.answer a.host .written) := by
  rw [serve, if_neg (by rw [access_rejected_iff, hw]; decide), hk]
  simp only [ht, answered]

/-- A write to CMD is answered when the command, or the error, is done. -/
theorem step_of_cmdWrite {s t : State} {h : Nat} {c : Word} {rest : List BusEvent}
    (hp : s.pending = .access ⟨h, 0x000, 4, .write c⟩ :: rest) (hx : execute c (s.setPending rest) = .next t) :
    step s = .next (t.answer h .written) := by
  rw [step_of_access hp]
  exact serve_of_write (a := ⟨h, 0x000, 4, .write c⟩) rfl rfl hx

theorem step_of_command {s t : State} {h : Nat} {c : Word} {rest : List BusEvent} {i : Instr}
    (hp : s.pending = .access ⟨h, 0x000, 4, .write c⟩ :: rest) (hd : decode c = .command i)
    (hx : exec i (s.setPending rest) = .next t) : step s = .next (t.answer h .written) :=
  step_of_cmdWrite hp ((execute_of_command hd _).trans hx)

/-- What `withFetchWord` places at the head of the queue is the write of the command's word. -/
theorem withFetchWord_pending (s : State) (i : Instr) :
    (s.withFetchWord 32 (encode i).toNat).pending = .access ⟨0, 0x000, 4, .write (encode i)⟩ :: s.pending := by
  rw [State.withFetchWord, setPending_pending, commandWrite, Nat.mod_eq_of_lt (encode i).isLt,
    BitVec.ofNat_toNat, BitVec.setWidth_eq]

/-- Settles O7: a write to CMD runs the command its word decodes to, and the word that `withFetchWord` places
decodes to its command. -/
theorem stepRunsTheDecodedCommand : Obligations.StepRunsTheDecodedCommand := by
  refine ⟨fun s h c rest i hp hd => ?decoded, fun s i => ?placed⟩
  case decoded =>
    obtain ⟨t, hx, -⟩ := exec_next i (s.setPending rest)
    exact ⟨t, hx, step_of_command hp hd hx⟩
  case placed =>
    obtain ⟨t, hx, -⟩ := exec_next i s
    exact ⟨t, hx, step_of_command (withFetchWord_pending s i) (decode_encode i) hx⟩

/-- Settles O8: the rejected word is a write to CMD that only sets ERR. -/
theorem stepReportsARejectedWord : Obligations.StepReportsARejectedWord := fun _ _ _ _ _ hp hd =>
  step_of_cmdWrite hp (execute_of_reject hd _)

/-- Settles O9: an access of the right width and alignment is well formed, and served as its kind says. -/
theorem hostAccessIsServedOrABusError : Obligations.HostAccessIsServedOrABusError := by
  intro s a rest hp
  have hw (hn : a.bytes = 4) (ha : a.off.toNat % 4 = 0) : a.wellFormed = true :=
    (wellFormed_iff a).2 ⟨hn, (offset_aligned_iff _).2 ha⟩
  rw [step_of_access hp]
  refine ⟨fun hbad => ?busError, fun hn ha hk => ?read, fun hn ha v hk => ?write⟩
  case busError => exact serve_of_not_wellFormed ((wellFormed_eq_false_iff a).2 hbad) _
  case read =>
    rw [serve_of_read (hw hn ha) hk, regRead, readReg_setPending]
    rfl
  case write =>
    obtain ⟨t, ht, -, -⟩ := regWrite_next a.off v (s.setPending rest)
    exact ⟨t, ht, serve_of_write (hw hn ha) hk ht⟩

/-- Settles O10: an idle block and a reset have a next state, and so has an access unless it is the bus error. -/
theorem onlyABusErrorStopsTheBlock : Obligations.OnlyABusErrorStopsTheBlock := by
  intro s
  rcases step_cases s with ⟨-, hs⟩ | ⟨rest, -, hs⟩ | ⟨a, rest, hp, hs⟩
  · exact .inl ⟨_, hs⟩
  · exact .inl ⟨_, hs⟩
  · rcases serve_cases a (s.setPending rest) with ⟨hw, hv⟩ | ⟨-, -, hv⟩ | ⟨-, v, t, -, -, hv⟩
    · exact .inr ⟨a, rest, hp, hw, hs.trans hv⟩
    · exact .inl ⟨_, hs.trans hv⟩
    · exact .inl ⟨_, hs.trans hv⟩

/-- Settles O14: the next state is the register write's, whose reads the register map's lemmas give. -/
theorem hostWriteChangesOnlyItsRegister : Obligations.HostWriteChangesOnlyItsRegister := by
  intro s h off v rest hp ha hw
  refine ⟨_, step_write s h off v rest hp ha (offset_ne_zero_of_hostWritable hw), ?value, fun r hr => ?frame,
    ?queue, ?answers⟩
  case value => rw [readReg_answer, readReg_writeReg_same hw]
  case frame => rw [readReg_answer, readReg_writeReg_other hr, readReg_setPending]
  case queue => simp
  case answers => simp

/-- Settles O15: the register write is ignored there, and CMD and the reserved offsets read zero. -/
theorem readOnlyAndReservedOffsetsIgnoreWrites : Obligations.ReadOnlyAndReservedOffsetsIgnoreWrites := by
  intro s h off kind rest hp ha
  refine ⟨fun v hk hw h0 => ?write, fun hk hoff => ?read⟩
  case write =>
    subst hk
    rw [step_write s h off v rest hp ha h0, writeReg_of_not_hostWritable hw]
  case read =>
    subst hk
    have hzero : regRead off s = 0x00000000 := by
      rcases hoff with rfl | hres
      · rfl
      · exact regRead_of_regAt hres s
    rw [step_read s h off rest hp ha, hzero]

/-- STATUS bit by bit (R24). -/
theorem statusWord_getLsbD (s : State) (i : Nat) :
    (statusWord s).getLsbD i =
      if i = 0 then s.ksValid else if i ≤ 2 then s.ksSize.getLsbD (i - 1)
      else if i = 3 then false else s.err.getLsbD (i - 4) := by
  unfold statusWord
  rw [BitVec.getLsbD_append, BitVec.getLsbD_append, BitVec.getLsbD_append, BitVec.getLsbD_append]
  by_cases h0 : i = 0
  · simp [h0]
  by_cases h2 : i ≤ 2
  · simp [h0, h2]
  by_cases h3 : i = 3
  · simp [h3]
  · rw [if_neg (by omega), if_neg (by omega), if_neg (by omega), if_neg h0, if_neg h2, if_neg h3,
      show i - 1 - 2 - 1 = i - 4 by omega]
    simpa using BitVec.lt_of_getLsbD

/-- Bit 0 of STATUS is KS_VALID, bits 2:1 are KS_SIZE and bits 7:4 are ERR (R24). -/
theorem statusWord_fields (s : State) :
    (statusWord s).getLsbD 0 = s.ksValid ∧ (statusWord s).extractLsb' 1 2 = s.ksSize ∧
      (statusWord s).extractLsb' 4 4 = s.err := by
  refine ⟨statusWord_getLsbD s 0, ?size, ?err⟩
  case size =>
    ext i hi
    rw [BitVec.getElem_extractLsb', statusWord_getLsbD, if_neg (by omega), if_pos (by omega),
      Nat.add_sub_cancel_left, BitVec.getLsbD_eq_getElem]
  case err =>
    ext i hi
    rw [BitVec.getElem_extractLsb', statusWord_getLsbD, if_neg (by omega), if_neg (by omega),
      if_neg (by omega), Nat.add_sub_cancel_left, BitVec.getLsbD_eq_getElem]

/-- Settles O16: the word read is STATUS, whose fields stand in their places with zeros between them. -/
theorem statusReadShowsItsFields : Obligations.StatusReadShowsItsFields := by
  intro s h rest hp
  obtain ⟨hvalid, hsize, herr⟩ := statusWord_fields s
  obtain ⟨hbit3, hhigh⟩ := statusWord_reserved s
  exact ⟨statusWord s, step_read s h 0x004 rest hp rfl, hvalid, hsize, hbit3, herr, hhigh⟩

/-- Settles O17: in each way a step completes, the head of the queue is gone and its access is answered. -/
theorem stepServesTheOldestEvent : Obligations.StepServesTheOldestEvent := by
  intro s t h
  cases serves_of_step h with
  | idle hp => simp [hp]
  | reset hp => simp [hp]
  | read hp _ => simp [hp]
  | write hp _ _ => simp [hp]
  | reject hp _ => simp [hp]
  | @command host c rest i u hp _ hx =>
    obtain ⟨u', hx', hq, ha, -⟩ := exec_next i (s.setPending rest)
    cases hx.symm.trans hx'
    simp [hp, hq, ha]

/-- Settles O21: what is left of the state before a reset is what stands on the bus, and a write to CMD before it
completes. -/
theorem resetLeavesNothingOfACommand : Obligations.ResetLeavesNothingOfACommand := by
  intro s rest
  refine ⟨step_of_reset, fun h c hp => ?afterCommand⟩
  case afterCommand =>
    obtain ⟨t, hx, hq, -⟩ := execute_next c (s.setPending (.reset :: rest))
    have hq' : (t.answer h .written).pending = .reset :: rest := hq
    exact ⟨_, _, step_of_cmdWrite hp hx, step_of_reset hq', fun r => readReg_resetBlock r _, rfl⟩

end Sys2Proof.Proofs
end

section
/-! ## What stands on the bus

A command reads and writes the block's registers alone, whatever waits and whatever has been answered
(60_exceptions.md R188, R192). So serving an event commutes with renaming the bus masters, and a queue of accesses
is served one answer an access. -/

namespace Sys2Proof.Proofs

open Sys2Proof.Machine Sys2Proof.Laws

/-- The same registers with another queue and other answers (log entries 1 and 2). -/
def onBus (q : List BusEvent) (l : List Answer) (s : State) : State := { s with pending := q, answers := l }

@[simp] theorem onBus_ksValid (q : List BusEvent) (l : List Answer) (s : State) :
    (onBus q l s).ksValid = s.ksValid := rfl

@[simp] theorem onBus_ksSize (q : List BusEvent) (l : List Answer) (s : State) :
    (onBus q l s).ksSize = s.ksSize := rfl

@[simp] theorem onBus_err (q : List BusEvent) (l : List Answer) (s : State) : (onBus q l s).err = s.err := rfl

@[simp] theorem onBus_pAcc (q : List BusEvent) (l : List Answer) (s : State) : (onBus q l s).pAcc = s.pAcc := rfl

@[simp] theorem onBus_pIn (q : List BusEvent) (l : List Answer) (s : State) : (onBus q l s).pIn = s.pIn := rfl

@[simp] theorem onBus_blkIn (q : List BusEvent) (l : List Answer) (s : State) :
    (onBus q l s).blkIn = s.blkIn := rfl

@[simp] theorem onBus_blkOut (q : List BusEvent) (l : List Answer) (s : State) :
    (onBus q l s).blkOut = s.blkOut := rfl

@[simp] theorem onBus_key (q : List BusEvent) (l : List Answer) (s : State) : (onBus q l s).key = s.key := rfl

@[simp] theorem onBus_rk (q : List BusEvent) (l : List Answer) (s : State) : (onBus q l s).rk = s.rk := rfl

section
variable (q : List BusEvent) (l : List Answer)

theorem encryptCmd_onBus (k : KeySize) (s : State) : encryptCmd k (onBus q l s) = onBus q l (encryptCmd k s) := by
  unfold encryptCmd
  rw [onBus_ksValid, onBus_ksSize]
  split
  · rfl
  · split <;> rfl

/-- A command does to the registers what it does with any other queue and answers. -/
theorem exec_onBus {i : Instr} {s t : State} (h : exec i s = .next t) :
    exec i (onBus q l s) = .next (onBus q l t) := by
  rcases exec_cases i s with ⟨k, rfl, hx⟩ | ⟨k, rfl, hx⟩ | ⟨bs, rfl, hx⟩ | ⟨bs, rfl, hx⟩ <;>
    cases h.symm.trans hx
  · rw [exec_keysched]; rfl
  · rw [exec_encrypt, encryptCmd_onBus]
  · rfl
  · rfl

theorem readReg_onBus (r : Reg) (s : State) : readReg r (onBus q l s) = readReg r s := by cases r <;> rfl

theorem writeReg_onBus (r : Reg) (v : Word) (s : State) :
    writeReg r v (onBus q l s) = onBus q l (writeReg r v s) := by cases r <;> rfl

theorem execute_onBus {c : Word} {s t : State} (h : execute c s = .next t) :
    execute c (onBus q l s) = .next (onBus q l t) := by
  cases hd : decode c with
  | command i =>
    rw [execute_of_command hd] at h ⊢
    exact exec_onBus q l h
  | reject e =>
    cases h.symm.trans (execute_of_reject hd s)
    exact execute_of_reject hd _

theorem regWrite_onBus {off : BitVec 9} {v : Word} {s t : State} (h : regWrite off v s = .next t) :
    regWrite off v (onBus q l s) = .next (onBus q l t) := by
  rw [regWrite_eq] at h ⊢
  by_cases h0 : off = 0
  · rw [if_pos h0] at h ⊢
    exact execute_onBus q l h
  · rw [if_neg h0] at h ⊢
    cases h
    rw [writeReg_onBus]

end

/-! Renaming the bus masters. -/

section
variable (f : Nat → Nat)

theorem relabel_eq_onBus (s : State) :
    s.relabel f = onBus (s.pending.map (BusEvent.relabel f)) (s.answers.map fun a => { a with host := f a.host }) s :=
  rfl

theorem relabel_pending (s : State) : (s.relabel f).pending = s.pending.map (BusEvent.relabel f) := rfl

theorem relabel_answer (s : State) (h : Nat) (d : AnswerData) :
    (s.answer h d).relabel f = (s.relabel f).answer (f h) d := by
  simp [State.relabel, State.answer]

/-- Renaming does not make an access well formed or ill formed: the check reads no host number. -/
theorem wellFormed_relabel (a : Access) : ({ a with host := f a.host } : Access).wellFormed = a.wellFormed := rfl

theorem regWrite_relabel {off : BitVec 9} {v : Word} {s t : State} (h : regWrite off v s = .next t) :
    regWrite off v (s.relabel f) = .next (t.relabel f) := by
  obtain ⟨t', ht', hp, ha⟩ := regWrite_next off v s
  cases h.symm.trans ht'
  rw [relabel_eq_onBus, relabel_eq_onBus, hp, ha]
  exact regWrite_onBus _ _ h

/-- Serving the access of another bus master gives that one the answer and does nothing else different. -/
theorem serve_relabel {a : Access} {s t : State} (h : serve a s = .next t) :
    serve { a with host := f a.host } (s.relabel f) = .next (t.relabel f) := by
  rcases serve_cases a s with ⟨-, hv⟩ | ⟨hw, hk, hv⟩ | ⟨hw, v, u, hk, hu, hv⟩ <;> cases h.symm.trans hv
  · have hread : regRead a.off (s.relabel f) = regRead a.off s := readReg_onBus _ _ _ s
    rw [relabel_answer, ← hread]
    exact serve_of_read ((wellFormed_relabel f a).trans hw) hk
  · rw [relabel_answer]
    exact serve_of_write ((wellFormed_relabel f a).trans hw) hk (regWrite_relabel f hu)

theorem step_relabel {s t : State} (h : step s = .next t) : step (s.relabel f) = .next (t.relabel f) := by
  rcases step_cases s with ⟨hp, hs⟩ | ⟨rest, hp, hs⟩ | ⟨a, rest, hp, hs⟩
  · cases h.symm.trans hs
    exact step_of_idle (by rw [relabel_pending, hp]; rfl)
  · cases h.symm.trans hs
    rw [step_of_reset (rest := rest.map (BusEvent.relabel f)) (by rw [relabel_pending, hp]; rfl)]
    rfl
  · rw [step_of_access (rest := rest.map (BusEvent.relabel f)) (by rw [relabel_pending, hp]; rfl)]
    exact serve_relabel f (hs.symm.trans h)

/-- A bus error names an address and no bus master. -/
theorem step_relabel_fault {s : State} {r : Fault} (h : step s = .fault r) : step (s.relabel f) = .fault r := by
  obtain ⟨t, ht⟩ | ⟨a, rest, hp, hw, hs⟩ := onlyABusErrorStopsTheBlock s
  · cases h.symm.trans ht
  · cases h.symm.trans hs
    rw [step_of_access (rest := rest.map (BusEvent.relabel f)) (by rw [relabel_pending, hp]; rfl)]
    exact serve_of_not_wellFormed ((wellFormed_relabel f a).trans hw) _

end

/-- Settles O19: a step commutes with renaming the bus masters, a bus error too. -/
theorem everyHostHasTheSameRights : Obligations.EveryHostHasTheSameRights := fun f _ =>
  ⟨fun _ => step_relabel f, fun _ => step_relabel_fault f⟩

/-! A queue of accesses. -/

/-- A queue of well-formed accesses is served in its order, one answer an access. -/
theorem run_of_wellFormed (arrived : List Access) (hw : ∀ a ∈ arrived, a.wellFormed = true) (s : State)
    (hp : s.pending = arrived.map .access) :
    ∃ t, Sys2Proof.core.run arrived.length s = .next t ∧ t.pending = [] ∧
      t.answers.map Answer.host = s.answers.map Answer.host ++ arrived.map Access.host := by
  induction arrived generalizing s with
  | nil => exact ⟨s, rfl, hp, by simp⟩
  | cons a rest ih =>
    obtain ⟨ha, hrest⟩ := List.forall_mem_cons.1 hw
    obtain ⟨u, hu⟩ | ⟨b, q, hp', hb, -⟩ := onlyABusErrorStopsTheBlock s
    · obtain ⟨hq, -, hans, -⟩ := stepServesTheOldestEvent s u hu
      obtain ⟨d, hd⟩ := hans a _ hp
      obtain ⟨t, ht, hend, hhosts⟩ := ih hrest u (by rw [hq, hp]; rfl)
      exact ⟨t, (run_succ _ hu).trans ht, hend, by simp [hhosts, hd]⟩
    · cases hp.symm.trans hp'
      simp [ha] at hb

theorem length_filter_host {α : Type} (host : α → Nat) (l : List α) (h : Nat) :
    (l.filter fun x => host x = h).length = (l.map host).count h := by
  rw [List.count, List.countP_map, List.countP_eq_length_filter]
  rfl

/-- Settles O18: the hosts of the answers are those of the accesses in their order, so they are as many for each
host. -/
theorem everyHostIsAnsweredInArrivalOrder : Obligations.EveryHostIsAnsweredInArrivalOrder := by
  rintro s perHost arrived ⟨hown, -⟩ hp hw
  obtain ⟨t, hrun, hend, hhosts⟩ := run_of_wellFormed arrived hw s hp
  refine ⟨t, hrun, hend, hhosts, fun h => ?_⟩
  rw [length_filter_host, length_filter_host, hhosts, List.count_append, ← hown h, length_filter_host]

end Sys2Proof.Proofs
end

section
/-! ## Who writes a register

Apart from what stands on the bus, a step leaves the registers as they are, resets them, writes one for the host,
or does to them what the command or the rejected word does (10_state.md R25 to R34). Which of these it is, is told
by the statements' own names for the event served. -/

namespace Sys2Proof.Proofs

open Sys2Proof.Machine Sys2Proof.Laws

/-- What a step makes of the registers of `s`, the bus aside. -/
inductive Effect (s : State) : State → Prop where
  | keep : commandServed s = none → resetServed s = false → Effect s s
  | reset : commandServed s = none → resetServed s = true → Effect s State.reset
  | write {r : Reg} {v : Word} : commandServed s = none → resetServed s = false → WriteServed r v s →
      Effect s (writeReg r v s)
  | command {i : Instr} {u : State} : commandServed s = some (.command i) → resetServed s = false →
      exec i s = .next u → Effect s u
  | reject {e : CommandError} : commandServed s = some (.reject e) → resetServed s = false →
      Effect s (raiseError e s)

section
variable {s : State} {host : Nat} {off : BitVec 9} {v c : Word} {rest : List BusEvent}

theorem resetServed_of_access {a : Access} (hp : s.pending = .access a :: rest) : resetServed s = false := by
  simp [resetServed, hp]

theorem commandServed_of_cmdWrite (hp : s.pending = .access ⟨host, 0, 4, .write c⟩ :: rest) :
    commandServed s = some (decode c) := by
  simp [commandServed, hp]

theorem commandServed_of_write (hp : s.pending = .access ⟨host, off, 4, .write v⟩ :: rest) (h0 : off ≠ 0) :
    commandServed s = none := by
  have hoff : ¬ off = 0#9 := h0
  simp [commandServed, hp, hoff]

end

/-- A command that runs on what is left of the queue does the same to the registers as it does on the whole. -/
theorem exec_of_exec_setPending {i : Instr} {s u : State} {q : List BusEvent}
    (h : exec i (s.setPending q) = .next u) :
    ∃ u', exec i s = .next u' ∧ u = onBus u.pending u.answers u' := by
  have hx : exec i (onBus s.pending s.answers (s.setPending q)) = _ := exec_onBus _ _ h
  exact ⟨_, hx, rfl⟩

/-- Every step has one of the effects on the registers. -/
theorem effect_of_step {s t : State} (h : step s = .next t) :
    ∃ u, Effect s u ∧ t = onBus t.pending t.answers u := by
  cases serves_of_step h with
  | idle hp => exact ⟨s, .keep (by simp [commandServed, hp]) (by simp [resetServed, hp]), rfl⟩
  | reset hp => exact ⟨_, .reset (by simp [commandServed, hp]) (by simp [resetServed, hp]), rfl⟩
  | read hp _ => exact ⟨s, .keep (by simp [commandServed, hp]) (resetServed_of_access hp), rfl⟩
  | @write host off v rest hp ha h0 =>
    refine ⟨_, .write (commandServed_of_write hp h0) (resetServed_of_access hp) ⟨_, _, _, ha, rfl, hp⟩, ?_⟩
    rw [show s.setPending rest = onBus rest s.answers s from rfl, writeReg_onBus]
    rfl
  | command hp hd hx =>
    obtain ⟨u, hu, hbus⟩ := exec_of_exec_setPending hx
    refine ⟨u, .command ((commandServed_of_cmdWrite hp).trans (congrArg some hd)) (resetServed_of_access hp) hu, ?_⟩
    rw [hbus]
    rfl
  | reject hp hd =>
    exact ⟨_, .reject ((commandServed_of_cmdWrite hp).trans (congrArg some hd)) (resetServed_of_access hp), rfl⟩

/-! What each effect leaves of the fields. -/

theorem exec_frame_of_not_keysched {i : Instr} {s u : State} (hi : i.keyschedSize = none) (h : exec i s = .next u) :
    SameSchedule s u ∧ u.key = s.key := by
  rcases exec_cases i s with ⟨k, rfl, -⟩ | ⟨k, rfl, hx⟩ | ⟨bs, rfl, hx⟩ | ⟨bs, rfl, hx⟩
  · rw [keyschedSize_keysched] at hi
    cases hi
  · cases h.symm.trans hx
    refine ⟨(encryptCmd_sameSchedule k s).1, ?_⟩
    rcases encryptCmd_cases k s with ⟨-, he⟩ | ⟨-, -, he⟩ | ⟨-, -, he⟩ <;> rw [he] <;> rfl
  · cases h.symm.trans hx
    exact ⟨⟨rfl, rfl, rfl⟩, rfl⟩
  · cases h.symm.trans hx
    exact ⟨⟨rfl, rfl, rfl⟩, rfl⟩

theorem exec_err_of_not_encrypt {i : Instr} {s u : State} (hi : ∀ k, i ≠ Instr.encrypt k)
    (h : exec i s = .next u) : u.err = 0 := by
  rcases exec_cases i s with ⟨k, rfl, hx⟩ | ⟨k, rfl, -⟩ | ⟨bs, rfl, hx⟩ | ⟨bs, rfl, hx⟩
  · cases h.symm.trans hx; rfl
  · exact absurd rfl (hi k)
  · cases h.symm.trans hx; rfl
  · cases h.symm.trans hx; rfl

theorem encryptCmd_err (k : KeySize) (s : State) :
    (encryptCmd k s).err = if s.ksValid = false then 4 else if s.ksSize ≠ k.code then 5 else 0 := by
  rcases encryptCmd_cases k s with ⟨hv, he⟩ | ⟨hv, hz, he⟩ | ⟨hv, hz, he⟩ <;> rw [he]
  · simp [hv, CommandError.code]
  · simp [hv, hz, CommandError.code]
  · simp [hv, hz, errOk]

/-- Only a successful ENCRYPT writes BLK_OUT (10_state.md R32). -/
theorem exec_blkOut {i : Instr} {s u : State} (h : exec i s = .next u) :
    u.blkOut = s.blkOut ∨
      ∃ k, i = Instr.encrypt k ∧ s.ksValid = true ∧ s.ksSize = k.code ∧ u.err = 0 := by
  rcases exec_cases i s with ⟨k, rfl, hx⟩ | ⟨k, rfl, hx⟩ | ⟨bs, rfl, hx⟩ | ⟨bs, rfl, hx⟩ <;>
    cases h.symm.trans hx
  · exact .inl (by simp [keySchedCmd])
  · rcases encryptCmd_cases k s with ⟨-, he⟩ | ⟨-, -, he⟩ | ⟨hv, hz, he⟩ <;> rw [he]
    · exact .inl rfl
    · exact .inl rfl
    · exact .inr ⟨k, rfl, hv, hz, rfl⟩
  · exact .inl rfl
  · exact .inl rfl

/-- Only the primitive commands write P_ACC (10_state.md R29). -/
theorem exec_pAcc {i : Instr} {s u : State} (h : exec i s = .next u) :
    u.pAcc = s.pAcc ∨ ∃ bs, i = .encround bs ∨ i = .encroundlast bs := by
  rcases exec_cases i s with ⟨k, rfl, hx⟩ | ⟨k, rfl, hx⟩ | ⟨bs, rfl, hx⟩ | ⟨bs, rfl, hx⟩ <;>
    cases h.symm.trans hx
  · exact .inl (by simp [keySchedCmd])
  · rcases encryptCmd_cases k s with ⟨-, he⟩ | ⟨-, -, he⟩ | ⟨-, -, he⟩ <;> rw [he] <;> exact .inl rfl
  · exact .inr ⟨bs, .inl rfl⟩
  · exact .inr ⟨bs, .inr rfl⟩

/-- Only the KEYSCHED commands write KEY (10_state.md R33). -/
theorem exec_key {i : Instr} {s u : State} (h : exec i s = .next u) :
    u.key = s.key ∨ ∃ k, i = Instr.keysched k := by
  rcases exec_cases i s with ⟨k, hi, -⟩ | ⟨k, rfl, -⟩ | ⟨bs, rfl, -⟩ | ⟨bs, rfl, -⟩
  · exact .inr ⟨k, hi⟩
  · exact .inl (exec_frame_of_not_keysched (keyschedSize_encrypt k) h).2
  · exact .inl (exec_frame_of_not_keysched rfl h).2
  · exact .inl (exec_frame_of_not_keysched rfl h).2

theorem writeReg_key (r : Reg) (v : Word) (s : State) : (writeReg r v s).key = s.key ∨ ∃ k, r = .key k := by
  cases r with
  | key k => exact .inr ⟨k, rfl⟩
  | _ => exact .inl rfl

theorem writeReg_pAcc (r : Reg) (v : Word) (s : State) : (writeReg r v s).pAcc = s.pAcc ∨ r = .pAcc := by
  cases r with
  | pAcc => exact .inr rfl
  | _ => exact .inl rfl

theorem writeReg_pIn (r : Reg) (v : Word) (s : State) : (writeReg r v s).pIn = s.pIn ∨ r = .pIn := by
  cases r with
  | pIn => exact .inr rfl
  | _ => exact .inl rfl

theorem writeReg_blkIn (r : Reg) (v : Word) (s : State) :
    (writeReg r v s).blkIn = s.blkIn ∨ ∃ j, r = .blkIn j := by
  cases r with
  | blkIn j => exact .inr ⟨j, rfl⟩
  | _ => exact .inl rfl

/-- Settles O22: KEYSCHED names its size, and no other effect but a reset touches the schedule. -/
theorem scheduleChangesOnlyByKeyschedOrReset : Obligations.ScheduleChangesOnlyByKeyschedOrReset := by
  intro s t h
  obtain ⟨u, hu, ht⟩ := effect_of_step h
  rw [ht]
  cases hu with
  | keep hc hr => simp [hc, hr]
  | reset hc hr => simp [hc, hr, State.reset]
  | @write r v hc hr _ =>
    obtain ⟨-, -, hv, hz, -, -, hrk⟩ := writeReg_frame r v s
    simp [hc, hr, hv, hz, hrk]
  | @command i u hc hr hx =>
    refine ⟨fun j k hj hk => ?keysched, by simp [hr], fun hno _ => ?other⟩
    case keysched =>
      cases hc.symm.trans hj
      rcases exec_cases i s with ⟨k', rfl, hx'⟩ | ⟨k', rfl, -⟩ | ⟨bs, rfl, -⟩ | ⟨bs, rfl, -⟩
      · cases hx.symm.trans hx'
        rw [keyschedSize_keysched] at hk
        cases hk
        simp [keySchedCmd_eq]
      · simp at hk
      · cases hk
      · cases hk
    case other =>
      have hi : i.keyschedSize = none := Option.eq_none_iff_forall_ne_some.2 fun k => hno i k hc
      exact (exec_frame_of_not_keysched hi hx).1
  | reject hc hr => simp [hc, hr]

/-- Settles O23: the effect of a rejected word, of ENCRYPT and of every other command on ERR. -/
theorem errIsTheLastCommandsResult : Obligations.ErrIsTheLastCommandsResult := by
  intro s t h
  obtain ⟨u, hu, ht⟩ := effect_of_step h
  rw [ht, onBus_err]
  cases hu with
  | keep hc hr => simp [hc, hr]
  | reset hc hr => simp [hc, hr, State.reset]
  | @write r v hc hr _ =>
    obtain ⟨-, -, -, -, he, -⟩ := writeReg_frame r v s
    simp [hc, hr, he]
  | @command i u hc hr hx =>
    refine ⟨by simp [hc], by simp [hr], by simp [hc], fun k hk => ?encrypt, fun j hj hne => ?other⟩
    case encrypt =>
      cases hc.symm.trans hk
      cases hx.symm.trans (exec_encrypt k s)
      exact encryptCmd_err k s
    case other =>
      cases hc.symm.trans hj
      exact exec_err_of_not_encrypt hne hx
  | reject hc hr => simp [hc, hr]

/-- Settles O24: the only effects that write BLK_OUT are a reset and a successful ENCRYPT. -/
theorem blkOutChangesOnlyByEncryptOrReset : Obligations.BlkOutChangesOnlyByEncryptOrReset := by
  intro s t h hne
  obtain ⟨u, hu, ht⟩ := effect_of_step h
  rw [ht, onBus_blkOut] at hne
  rw [ht, onBus_err]
  cases hu with
  | keep _ _ => exact absurd rfl hne
  | reset _ hr => exact .inl hr
  | @write r v _ _ _ =>
    obtain ⟨-, -, -, -, -, hb, -⟩ := writeReg_frame r v s
    exact absurd hb hne
  | command hc _ hx =>
    obtain ⟨k, rfl, hv, hz, he⟩ := (exec_blkOut hx).resolve_left hne
    exact .inr ⟨k, hc, hv, hz, he⟩
  | reject _ _ => exact absurd rfl hne

/-- Settles O25: the only effects that write KEY or P_ACC are their writers'. -/
theorem keyAndAccumulatorChangeOnlyByTheirWriters : Obligations.KeyAndAccumulatorChangeOnlyByTheirWriters := by
  intro s t h
  obtain ⟨u, hu, ht⟩ := effect_of_step h
  rw [ht, onBus_key, onBus_pAcc]
  cases hu with
  | keep _ _ => exact ⟨fun hne => absurd rfl hne, fun hne => absurd rfl hne⟩
  | reset _ hr => exact ⟨fun _ => .inl hr, fun _ => .inl hr⟩
  | @write r v _ _ hw =>
    refine ⟨fun hne => ?key, fun hne => ?pAcc⟩
    case key =>
      obtain ⟨k, rfl⟩ := (writeReg_key r v s).resolve_left hne
      exact .inr (.inl ⟨k, v, hw⟩)
    case pAcc =>
      obtain rfl := (writeReg_pAcc r v s).resolve_left hne
      exact .inr (.inl ⟨v, hw⟩)
  | command hc _ hx =>
    refine ⟨fun hne => ?key', fun hne => ?pAcc'⟩
    case key' =>
      obtain ⟨k, rfl⟩ := (exec_key hx).resolve_left hne
      exact .inr (.inr ⟨k, hc⟩)
    case pAcc' =>
      obtain ⟨bs, rfl | rfl⟩ := (exec_pAcc hx).resolve_left hne
      · exact .inr (.inr ⟨bs, .inl hc⟩)
      · exact .inr (.inr ⟨bs, .inr hc⟩)
  | reject _ _ => exact ⟨fun hne => absurd rfl hne, fun hne => absurd rfl hne⟩

/-- Settles O26: no command writes P_IN or BLK_IN, so only a host's write and a reset are left. -/
theorem inputRegistersChangeOnlyByTheHost : Obligations.InputRegistersChangeOnlyByTheHost := by
  intro s t h
  obtain ⟨u, hu, ht⟩ := effect_of_step h
  rw [ht, onBus_pIn, onBus_blkIn]
  cases hu with
  | keep _ _ => exact ⟨fun hne => absurd rfl hne, fun hne => absurd rfl hne⟩
  | reset _ hr => exact ⟨fun _ => .inl hr, fun _ => .inl hr⟩
  | @write r v _ _ hw =>
    refine ⟨fun hne => ?pIn, fun hne => ?blkIn⟩
    case pIn =>
      obtain rfl := (writeReg_pIn r v s).resolve_left hne
      exact .inr ⟨v, hw⟩
    case blkIn =>
      obtain ⟨j, rfl⟩ := (writeReg_blkIn r v s).resolve_left hne
      exact .inr ⟨j, v, hw⟩
  | @command i u _ _ hx =>
    obtain ⟨u', hx', -, -, hpIn, hblkIn⟩ := exec_next i s
    cases hx.symm.trans hx'
    exact ⟨fun hne => absurd hpIn hne, fun hne => absurd hblkIn hne⟩
  | reject _ _ => exact ⟨fun hne => absurd rfl hne, fun hne => absurd rfl hne⟩

/-! The table of 30_encoding.md R83, register by register. -/

theorem readReg_keySchedCmd {k : KeySize} {r : Reg} (hr : (Instr.keysched k).writes r = false) (s : State) :
    readReg r (keySchedCmd k s) = readReg r s := by
  cases r with
  | status | key _ | rk _ => cases k <;> cases hr
  | cmd | cap | reserved => rfl
  | pAcc | pIn | blkIn _ | blkOut _ => simp [readReg, keySchedCmd]

theorem readReg_encryptCmd {k : KeySize} {r : Reg} (hr : (Instr.encrypt k).writes r = false) (s : State) :
    readReg r (encryptCmd k s) = readReg r s := by
  rcases encryptCmd_cases k s with ⟨-, he⟩ | ⟨-, -, he⟩ | ⟨-, -, he⟩ <;> rw [he]
  all_goals
    cases r with
    | status | blkOut _ => cases k <;> cases hr
    | cmd | cap | pAcc | pIn | blkIn _ | key _ | rk _ | reserved => rfl

/-- A command that only writes P_ACC and ERR leaves every register but those two. -/
theorem readReg_succeed_setPAcc {r : Reg} (hstatus : r ≠ .status) (hacc : r ≠ .pAcc) (v : Word) (s : State) :
    readReg r (succeed (s.setPAcc v)) = readReg r s := by
  cases r with
  | status => exact absurd rfl hstatus
  | pAcc => exact absurd rfl hacc
  | _ => rfl

theorem readReg_exec {i : Instr} {r : Reg} {s t : State} (hr : i.writes r = false) (h : exec i s = .next t) :
    readReg r t = readReg r s := by
  rcases exec_cases i s with ⟨k, rfl, hx⟩ | ⟨k, rfl, hx⟩ | ⟨bs, rfl, hx⟩ | ⟨bs, rfl, hx⟩ <;>
    cases h.symm.trans hx
  · exact readReg_keySchedCmd hr s
  · exact readReg_encryptCmd hr s
  · exact readReg_succeed_setPAcc (by rintro rfl; cases hr) (by rintro rfl; cases hr) _ s
  · exact readReg_succeed_setPAcc (by rintro rfl; cases hr) (by rintro rfl; cases hr) _ s

/-- Settles O27: the frame of each kind of command by the table, the schedule's status bits and the bus. -/
theorem commandsWriteOnlyTheirRegisters : Obligations.CommandsWriteOnlyTheirRegisters := by
  intro i s t h
  obtain ⟨u, hu, hq, ha, -⟩ := exec_next i s
  cases h.symm.trans hu
  refine ⟨fun r hr => readReg_exec hr h, fun hi => ?schedule, hq, ha⟩
  case schedule =>
    obtain ⟨⟨hv, hz, -⟩, -⟩ := exec_frame_of_not_keysched hi h
    exact ⟨hv, hz⟩

end Sys2Proof.Proofs
end

section
/-! ## The primitives, byte by byte

The two primitive commands XOR a substituted byte, or its MixColumns contribution, into P_ACC (40_primitives.md
R101 to R107), and SubWord, RotWord and the first word of an update step are read off from that
(42_key_schedule.md R130 to R135). -/

namespace Sys2Proof.Proofs

open Sys2Proof.Machine Sys2Proof.Laws

/-- Settles O28: the command XORs the contribution of the substituted byte, whose rows count from `bs`. -/
theorem encroundAccumulatesAMixedColumn : Obligations.EncroundAccumulatesAMixedColumn := by
  intro bs s
  refine ⟨encRound s.pAcc s.pIn bs, rfl, ?row0, byteOf_encRound_next _ _ _, ?row2, ?row3⟩
  case row0 => simpa using byteOf_encRound s.pAcc s.pIn bs 0
  case row2 => rw [BitVec.add_comm, byteOf_encRound, byteOf_wordOf_two]
  case row3 => rw [BitVec.add_comm, byteOf_encRound, byteOf_wordOf_three]

/-- Settles O29: the command XORs the substituted byte into its own place. -/
theorem encroundlastAccumulatesOneByte : Obligations.EncroundlastAccumulatesOneByte := fun bs s =>
  ⟨encRoundLast s.pAcc s.pIn bs, rfl, byteOf_encRoundLast_same _ _ _,
    fun k hk => byteOf_encRoundLast_other _ _ _ k hk⟩

theorem encRound_encRound (acc inp : Word) (b : BitVec 2) : encRound (encRound acc inp b) inp b = acc := by
  simp [encRound]

theorem encRoundLast_encRoundLast (acc inp : Word) (b : BitVec 2) :
    encRoundLast (encRoundLast acc inp b) inp b = acc := by
  simp [encRoundLast]

/-- Settles O31: the second call adds the same contribution, and XOR cancels it. -/
theorem samePrimitiveTwiceRestoresTheAccumulator : Obligations.SamePrimitiveTwiceRestoresTheAccumulator :=
  fun _ _ => ⟨⟨_, _, rfl, rfl, encRound_encRound _ _ _⟩, ⟨_, _, rfl, rfl, encRoundLast_encRoundLast _ _ _⟩⟩

/-- Settles O33: both products, for each of the 256 bytes. -/
theorem xtimeAndMul3AreFieldProducts : Obligations.XtimeAndMul3AreFieldProducts := by
  unfold Obligations.XtimeAndMul3AreFieldProducts
  decide

/-! The contributions of the four rows, written out (40_primitives.md R102). -/

theorem mc_row0 (x : Byte) : mc x 0 = wordOf (xtime x) x x (mul3 x) := by
  refine word_ext (selector_cases _ ?_ ?_ ?_ ?_)
  · exact byteOf_mc x 0 0
  · exact byteOf_mc x 0 1
  · exact byteOf_mc x 0 2
  · exact byteOf_mc x 0 3

theorem mc_row1 (x : Byte) : mc x 1 = wordOf (mul3 x) (xtime x) x x := by
  refine word_ext (selector_cases _ ?_ ?_ ?_ ?_)
  · simpa using byteOf_mc x 1 3
  · simpa using byteOf_mc x 1 0
  · simpa using byteOf_mc x 1 1
  · simpa using byteOf_mc x 1 2

theorem mc_row2 (x : Byte) : mc x 2 = wordOf x (mul3 x) (xtime x) x := by
  refine word_ext (selector_cases _ ?_ ?_ ?_ ?_)
  · simpa using byteOf_mc x 2 2
  · simpa using byteOf_mc x 2 3
  · simpa using byteOf_mc x 2 0
  · simpa using byteOf_mc x 2 1

theorem mc_row3 (x : Byte) : mc x 3 = wordOf x x (mul3 x) (xtime x) := by
  refine word_ext (selector_cases _ ?_ ?_ ?_ ?_)
  · simpa using byteOf_mc x 3 1
  · simpa using byteOf_mc x 3 2
  · simpa using byteOf_mc x 3 3
  · simpa using byteOf_mc x 3 0

theorem wordOf_xor (a0 a1 a2 a3 b0 b1 b2 b3 : Byte) :
    wordOf a0 a1 a2 a3 ^^^ wordOf b0 b1 b2 b3 = wordOf (a0 ^^^ b0) (a1 ^^^ b1) (a2 ^^^ b2) (a3 ^^^ b3) := by
  refine word_ext (selector_cases _ ?_ ?_ ?_ ?_) <;> simp

/-- The formula for a whole column, row by row, sums what its bytes contribute. -/
theorem mixColumn_eq_xor (a0 a1 a2 a3 : Byte) :
    mixColumn a0 a1 a2 a3 = mc a0 0 ^^^ mc a1 1 ^^^ mc a2 2 ^^^ mc a3 3 := by
  rw [mc_row0, mc_row1, mc_row2, mc_row3, wordOf_xor, wordOf_xor, wordOf_xor, mixColumn]
  congr 1 <;> ac_rfl

/-- A zero byte contributes nothing. -/
theorem mc_zero (b : BitVec 2) : mc 0#8 b = 0#32 := by revert b; decide

/-- Settles O34: a column with one byte alone is the sum of that byte's contribution and three that are zero. -/
theorem mixColumnsIsTheSumOfContributions : Obligations.MixColumnsIsTheSumOfContributions := by
  refine ⟨mixColumn_eq_xor, fun s => ?_⟩
  simp [mixColumn_eq_xor, mc_zero]

/-- RotWord moves byte `k + 1` to byte `k` (42_key_schedule.md R134). -/
theorem byteOf_rotWord (w : Word) (k : BitVec 2) : byteOf (rotWord w) k = byteOf w (k + 1) := by
  have hback : k + 1 + 3 = k := by revert k; decide
  have h := byteOf_rotl32 w 3 (k + 1)
  rwa [hback] at h

/-- Settles O36: SubWord by its closed form, RotWord by the byte it moves to each place. -/
theorem subWordAndRotWordByBytes : Obligations.SubWordAndRotWordByBytes := fun w =>
  ⟨subWord_eq_subBytesWord w, byteOf_rotWord w 0, byteOf_rotWord w 1, byteOf_rotWord w 2, byteOf_rotWord w 3⟩

/-- The four calls of SubWord on an accumulator that starts from a seed. -/
theorem accumulate_encRoundLast_same (seed w : Word) :
    accumulate encRoundLast seed w w w w = seed ^^^ subWord w := by
  simp [accumulate, subWord, encRoundLast, BitVec.xor_assoc]

/-- Settles O37: the seed is the first word with the constant, which is byte 0 of its word. -/
theorem firstWordUpdateIsFourSeededCalls : Obligations.FirstWordUpdateIsFourSeededCalls := by
  intro i w0 last
  refine ⟨?calls, fun k hk => ?bytes⟩
  case calls =>
    have hseeded := accumulate_encRoundLast_same (w0 ^^^ (rcon i).setWidth 32) (rotWord last)
    rw [accumulate] at hseeded
    rw [hseeded, updateFirst]
    ac_rfl
  case bytes =>
    have hk0 : ¬ k = 0#2 := hk
    simp [updateFirst, hk0]

/-- Settles O35: the ten values, and each of the nine products by 2. -/
theorem rconValuesAndRecurrence : Obligations.RconValuesAndRecurrence := by
  unfold Obligations.RconValuesAndRecurrence
  decide

end Sys2Proof.Proofs
end

section
/-! ## The expansion loop and KEYSCHED

The loop leaves by its exit after exactly `STEPS` update steps (42_key_schedule.md R132, R137), and KEYSCHED
places what it emits in RK, reading the first `Nk` words of KEY and no others (R138, R142). -/

namespace Sys2Proof.Proofs

open Sys2Proof.Machine Sys2Proof.Laws

section
variable {nk need : Nat}

theorem expandLoop_leave {live out : List Word} (h : need ≤ (out ++ live).length) (n i : Nat) :
    expandLoop nk need (n + 1) i live out = out ++ live := by
  simp only [expandLoop, if_pos h]

theorem expandLoop_continue {live out : List Word} (h : (out ++ live).length < need) (n i : Nat) :
    expandLoop nk need (n + 1) i live out =
      expandLoop nk need n (i + 1) (updateStep nk i live) (out ++ live) := by
  simp only [expandLoop, if_neg (Nat.not_le.2 h)]

section
variable {i : Nat} {live out : List Word} (hlive : live.length = nk) (hout : out.length = nk * i)
include hlive hout

theorem length_emitted : (out ++ live).length = nk * (i + 1) := by
  rw [List.length_append, hout, hlive, Nat.mul_succ]

theorem length_emitted_lt {n : Nat} (hshort : nk * (i + 1 + n) < need) : (out ++ live).length < need := by
  rw [length_emitted hlive hout]
  exact (Nat.mul_le_mul_left nk (Nat.le_add_right _ _)).trans_lt hshort

/-- Iterations that do not emit the words needed emit `Nk` words each. -/
theorem length_expandLoop_of_short {n : Nat} (hshort : nk * (i + n) < need) :
    (expandLoop nk need n i live out).length = nk * (i + n) := by
  induction n generalizing i live out with
  | zero => exact hout
  | succ n ih =>
    rw [Nat.add_comm n 1, ← Nat.add_assoc] at hshort ⊢
    rw [Nat.add_comm 1 n, expandLoop_continue (length_emitted_lt hlive hout hshort)]
    exact ih (by rw [updateStep_length, hlive]) (length_emitted hlive hout) hshort

/-- Where `n` iterations emit too few words and one more emits enough, the loop leaves in that one, and a larger
bound on the iterations changes nothing. -/
theorem expandLoop_exit {n : Nat} (hshort : nk * (i + n) < need) (hexit : need ≤ nk * (i + n + 1)) (more : Nat) :
    (expandLoop nk need (n + 1) i live out).length = nk * (i + n + 1) ∧
      expandLoop nk need (n + 1 + more) i live out = expandLoop nk need (n + 1) i live out := by
  rw [Nat.add_right_comm n 1 more]
  induction n generalizing i live out with
  | zero =>
    have hlen := length_emitted hlive hout
    have hleave : need ≤ (out ++ live).length := by rwa [hlen]
    rw [expandLoop_leave hleave, expandLoop_leave hleave]
    exact ⟨hlen, rfl⟩
  | succ n ih =>
    rw [Nat.add_comm n 1, ← Nat.add_assoc] at hshort hexit ⊢
    have hgo := length_emitted_lt hlive hout hshort
    rw [expandLoop_continue hgo, expandLoop_continue hgo, Nat.add_assoc 1 n more, Nat.add_comm 1 n,
      Nat.add_comm 1 (n + more)]
    exact ih (by rw [updateStep_length, hlive]) (length_emitted hlive hout) hshort hexit

end

end

/-- `STEPS` iterations emit too few words, one more emits enough (42_key_schedule.md R137). -/
theorem keySize_steps_exit (k : KeySize) :
    k.nk * k.steps < k.scheduleWords ∧ k.scheduleWords ≤ k.nk * (k.steps + 1) := by
  cases k <;> decide

/-- Settles O39: the loop starts with the key as its live words and nothing emitted. -/
theorem expansionStopsAfterStepsUpdates : Obligations.ExpansionStopsAfterStepsUpdates := by
  intro k key hkey
  obtain ⟨hshort, hexit⟩ := keySize_steps_exit k
  rw [← Nat.zero_add k.steps] at hshort hexit
  refine ⟨?length, ?before, fun more => ?after⟩
  case length =>
    rw [(expandLoop_exit hkey rfl hshort hexit 0).1]
    cases k <;> rfl
  case before => rwa [length_expandLoop_of_short hkey rfl hshort]
  case after => exact (expandLoop_exit hkey rfl hshort hexit more).2

/-! What KEYSCHED leaves in RK. -/

/-- The flat recurrence speaks of the key words below `Nk` and of the words below `4(Nr+1)`. -/
theorem flatSchedule_congr {k : KeySize} {key key' w w' : Nat → Word} (h : FlatSchedule k key w)
    (hkey : ∀ n, n < k.nk → key n = key' n) (hw : ∀ n, n < k.scheduleWords → w n = w' n) :
    FlatSchedule k key' w' := by
  obtain ⟨hfirst, hrec⟩ := h
  have hpos := keySize_nk_pos k
  refine ⟨fun n hn => ?_, fun n hn hend => ?_⟩
  · rw [← hw n (hn.trans_le (keySize_nk_le_scheduleWords k)), hfirst n hn, hkey n hn]
  · rw [← hw n hend, ← hw (n - k.nk) (by omega), ← hw (n - 1) (by omega)]
    exact hrec n hn hend

theorem keySize_scheduleWords_le_sixty (k : KeySize) : k.scheduleWords ≤ 60 := by cases k <;> decide

theorem keyMaterial_getD {k : KeySize} {n : Nat} (hn : n < k.nk) (s : State) :
    (keyMaterial k s).getD n 0 = s.key[n]?.getD 0 := by
  rw [List.getD_eq_getElem?_getD, keyMaterial_getElem?, if_pos hn]

theorem keySchedCmd_rk (k : KeySize) (s : State) :
    (keySchedCmd k s).rk = scheduleRegs k (keyExpand k (keyMaterial k s)) := by
  rw [keySchedCmd_eq]

theorem keySchedCmd_key (k : KeySize) (s : State) : (keySchedCmd k s).key = Vector.replicate 8 0 := by
  rw [keySchedCmd_eq]

theorem keySchedCmd_rk_getD {k : KeySize} {n : Nat} (hn : n < k.scheduleWords) (s : State) :
    (keySchedCmd k s).rk[n]?.getD 0 = (keyExpand k (keyMaterial k s)).getD n 0 := by
  have h60 : n < 60 := hn.trans_le (keySize_scheduleWords_le_sixty k)
  rw [keySchedCmd_rk, Vector.getElem?_eq_getElem h60, Option.getD_some, scheduleRegs_getElem, if_pos hn]

/-- RK holds the flat schedule of the KEY words the command read. -/
theorem flatSchedule_keySchedCmd (k : KeySize) (s : State) :
    FlatSchedule k (fun n => s.key[n]?.getD 0) (fun n => (keySchedCmd k s).rk[n]?.getD 0) :=
  flatSchedule_congr (keyExpandIsTheFlatRecurrence k _ (keyMaterial_length k s)).2
    (fun _ hn => keyMaterial_getD hn s) fun _ hn => (keySchedCmd_rk_getD hn s).symm

/-- Settles O41: the schedule is the flat one, and behind it KEYSCHED places zeros. -/
theorem keyschedLeavesTheFlatSchedule : Obligations.KeyschedLeavesTheFlatSchedule := by
  intro k s
  refine ⟨_, exec_keysched k s, flatSchedule_keySchedCmd k s, fun n hn => ?zeros⟩
  case zeros =>
    rw [keySchedCmd_rk, Fin.getElem_fin, scheduleRegs_getElem, if_neg (by omega)]

/-- Settles O42: RK is a function of the key material, and that is the first `Nk` words of KEY. -/
theorem keyschedReadsOnlyItsKeyWords : Obligations.KeyschedReadsOnlyItsKeyWords := by
  intro k s s' t t' hkey ht ht'
  cases ht.symm.trans (exec_keysched k s)
  cases ht'.symm.trans (exec_keysched k s')
  have hmaterial : keyMaterial k s = keyMaterial k s' := by
    refine List.ext_getElem? fun n => ?_
    rw [keyMaterial_getElem?, keyMaterial_getElem?]
    exact ite_congr rfl (hkey n) fun _ => rfl
  rw [keySchedCmd_rk, keySchedCmd_rk, hmaterial]

/-- Settles O43: the first KEYSCHED leaves zeros in KEY, which the second one reads. -/
theorem secondKeyschedExpandsTheZeroKey : Obligations.SecondKeyschedExpandsTheZeroKey := by
  intro k k' s
  refine ⟨_, _, exec_keysched k s, exec_keysched k' _, ?_⟩
  refine flatSchedule_congr (flatSchedule_keySchedCmd k' (keySchedCmd k s)) (fun n _ => ?_) fun _ _ => rfl
  rw [keySchedCmd_key, Vector.getElem?_replicate]
  split <;> rfl

end Sys2Proof.Proofs
end

section
/-! ## The cipher

Four calls of a primitive on a round-key word add up to a column of the round: SubBytes, ShiftRows, MixColumns but
for the final round, and AddRoundKey (43_round_function.md R160 to R164). -/

namespace Sys2Proof.Proofs

open Sys2Proof.Machine Sys2Proof.Laws

theorem byteOf_subBytesWord (w : Word) (b : BitVec 2) : byteOf (subBytesWord w) b = sbox (byteOf w b) := by
  revert b
  refine selector_cases _ ?_ ?_ ?_ ?_ <;> simp [subBytesWord]

/-- The diagonal of substituted words holds the substituted bytes that the four calls read. -/
theorem diagonal_subBytesWord (x0 x1 x2 x3 : Word) :
    diagonal (subBytesWord x0) (subBytesWord x1) (subBytesWord x2) (subBytesWord x3) =
      wordOf (sbox (byteOf x0 0)) (sbox (byteOf x1 1)) (sbox (byteOf x2 2)) (sbox (byteOf x3 3)) := by
  simp only [diagonal, byteOf_subBytesWord]

/-- SubBytes and ShiftRows commute. -/
theorem subBytesWord_diagonal (x0 x1 x2 x3 : Word) :
    subBytesWord (diagonal x0 x1 x2 x3) =
      diagonal (subBytesWord x0) (subBytesWord x1) (subBytesWord x2) (subBytesWord x3) := by
  rw [diagonal_subBytesWord]
  simp [subBytesWord, diagonal]

theorem mixColumnWord_wordOf (a0 a1 a2 a3 : Byte) : mixColumnWord (wordOf a0 a1 a2 a3) = mixColumn a0 a1 a2 a3 := by
  simp [mixColumnWord]

/-- Four EncRound calls add a mixed column to the round-key word (43_round_function.md R162). -/
theorem accumulate_encRound (seed x0 x1 x2 x3 : Word) :
    accumulate encRound seed x0 x1 x2 x3 =
      mixColumnWord (diagonal (subBytesWord x0) (subBytesWord x1) (subBytesWord x2) (subBytesWord x3)) ^^^ seed := by
  rw [diagonal_subBytesWord, mixColumnWord_wordOf, mixColumn_eq_xor]
  simp only [accumulate, encRound]
  ac_rfl

/-- Four EncRoundLast calls add a substituted diagonal to the round-key word (43_round_function.md R163). -/
theorem accumulate_encRoundLast (seed x0 x1 x2 x3 : Word) :
    accumulate encRoundLast seed x0 x1 x2 x3 =
      diagonal (subBytesWord x0) (subBytesWord x1) (subBytesWord x2) (subBytesWord x3) ^^^ seed := by
  rw [diagonal_subBytesWord]
  refine word_ext (selector_cases _ ?_ ?_ ?_ ?_) <;>
    simp [accumulate, byteOf_encRoundLast_same, byteOf_encRoundLast_other, BitVec.xor_comm]

theorem mainRound_eq_aesMainRound (rk s : Block) : mainRound rk s = aesMainRound rk s := by
  simp [mainRound, roundWith, accumulate_encRound, aesMainRound, whiten, mixColumns, shiftRows, subBytes]

theorem finalRound_eq_aesFinalRound (rk s : Block) : finalRound rk s = aesFinalRound rk s := by
  simp [finalRound, roundWith, accumulate_encRoundLast, aesFinalRound, whiten, shiftRows, subBytes]

/-- Settles O46: each of the four output words is one column of the round. -/
theorem roundsAreTheFourAesSteps : Obligations.RoundsAreTheFourAesSteps := fun rk s =>
  ⟨mainRound_eq_aesMainRound rk s, finalRound_eq_aesFinalRound rk s⟩

theorem afterRounds_eq_aesRounds (rks : Nat → Block) (p : Block) (n : Nat) :
    afterRounds rks p n = aesRounds rks p n := by
  induction n with
  | zero => rfl
  | succ n ih => rw [afterRounds, aesRounds, ih, mainRound_eq_aesMainRound]

theorem encrypt_eq_aesCipher (k : KeySize) (rks : Nat → Block) (p : Block) :
    encrypt k rks p = aesCipher k rks p := by
  rw [encrypt, aesCipher, afterRounds_eq_aesRounds, finalRound_eq_aesFinalRound]

theorem encryptCmd_of_no_schedule {k : KeySize} {s : State} (hv : s.ksValid = false) :
    encryptCmd k s = raiseError .noSchedule s := if_pos hv

theorem encryptCmd_of_size_mismatch {k : KeySize} {s : State} (hv : s.ksValid = true) (hz : s.ksSize ≠ k.code) :
    encryptCmd k s = raiseError .sizeMismatch s := by
  rw [encryptCmd, if_neg (by simp [hv]), if_pos hz]

/-- With a schedule of its size ENCRYPT succeeds (43_round_function.md R164). -/
theorem encryptCmd_of_schedule {k : KeySize} {s : State} (hv : s.ksValid = true) (hz : s.ksSize = k.code) :
    encryptCmd k s = { s with blkOut := aesCipher k (roundKey s.rk) s.blkIn, err := 0 } := by
  rw [← encrypt_eq_aesCipher]
  rcases encryptCmd_cases k s with ⟨hv', -⟩ | ⟨-, hz', -⟩ | ⟨-, -, he⟩
  · simp [hv] at hv'
  · exact absurd hz hz'
  · exact he

/-- Settles O45: the schedule passes both checks, and the encryption is the cipher of the four AES steps. -/
theorem encryptIsTheAesCipher : Obligations.EncryptIsTheAesCipher := by
  intro s hv
  have haes (k : KeySize) (hz : s.ksSize = k.code) : exec (Instr.encrypt k) s =
      .next { s with blkOut := aesCipher k (roundKey s.rk) s.blkIn, err := 0 } := by
    rw [exec_encrypt, encryptCmd_of_schedule hv hz]
  exact ⟨haes .k128, haes .k192, haes .k256⟩

/-! What ENCRYPT reads. -/

theorem afterRounds_congr {rks rks' : Nat → Block} {n : Nat} (h : ∀ r, r ≤ n → rks r = rks' r) (p : Block) :
    afterRounds rks p n = afterRounds rks' p n := by
  induction n with
  | zero => rw [afterRounds, afterRounds, h 0 le_rfl]
  | succ n ih => rw [afterRounds, afterRounds, h (n + 1) le_rfl, ih fun r hr => h r (hr.trans (Nat.le_succ n))]

/-- The cipher reads the round keys 0 to `Nr`. -/
theorem encrypt_congr {k : KeySize} {rks rks' : Nat → Block} (h : ∀ r, r ≤ k.nr → rks r = rks' r) (p : Block) :
    encrypt k rks p = encrypt k rks' p := by
  rw [encrypt, encrypt, h k.nr le_rfl, afterRounds_congr (fun r hr => h r (hr.trans (Nat.sub_le _ _)))]

theorem scheduleWord_eq_getD (rk : Vector Word 60) (n : Nat) : scheduleWord rk n = rk[n]?.getD 0 := by
  unfold scheduleWord
  split
  · rename_i h
    rw [Vector.getElem?_eq_getElem h, Option.getD_some]
  · rename_i h
    rw [Vector.getElem?_eq_none (Nat.not_lt.1 h), Option.getD_none]

theorem roundKey_congr {rk rk' : Vector Word 60} {r : Nat} (h : ∀ n, n < 4 * r + 4 → rk[n]? = rk'[n]?) :
    roundKey rk r = roundKey rk' r := by
  have hword (n : Nat) (hn : n < 4 * r + 4) : scheduleWord rk n = scheduleWord rk' n := by
    rw [scheduleWord_eq_getD, scheduleWord_eq_getD, h n hn]
  simp [roundKey, hword]

/-- Settles O47: equal status bits take the two states through the same check, and equal round keys give the same
block. -/
theorem encryptReadsOnlyItsOperands : Obligations.EncryptReadsOnlyItsOperands := by
  intro k s s' t t' hblk hvalid hsize hrk ht ht'
  cases ht.symm.trans (exec_encrypt k s)
  cases ht'.symm.trans (exec_encrypt k s')
  refine ⟨?err, fun h0 => ?block⟩
  case err => rw [encryptCmd_err, encryptCmd_err, hvalid, hsize]
  case block =>
    have hkeys : ∀ r, r ≤ k.nr → roundKey s.rk r = roundKey s'.rk r := fun r hr =>
      roundKey_congr fun n hn => hrk n (by omega)
    rcases encryptCmd_cases k s with ⟨-, he⟩ | ⟨-, -, he⟩ | ⟨hv, hz, he⟩
    · rw [he] at h0
      cases h0
    · rw [he] at h0
      cases h0
    · rw [encryptCmd_of_schedule hv hz, encryptCmd_of_schedule (hvalid ▸ hv) (hsize ▸ hz)]
      simp only [← encrypt_eq_aesCipher, hblk, encrypt_congr hkeys]

/-- Settles O48: ENCRYPT leaves what its checks and its encryption read, so it meets the same outcome again. -/
theorem repeatedEncryptChangesNothing : Obligations.RepeatedEncryptChangesNothing := by
  intro k s t ht
  cases ht.symm.trans (exec_encrypt k s)
  rw [exec_encrypt]
  congr 1
  rcases encryptCmd_cases k s with ⟨hv, he⟩ | ⟨hv, hz, he⟩ | ⟨hv, hz, -⟩
  · rw [he]
    exact encryptCmd_of_no_schedule hv
  · rw [he]
    exact encryptCmd_of_size_mismatch hv hz
  · rw [encryptCmd_of_schedule hv hz]
    exact encryptCmd_of_schedule hv hz

/-- A round key of a schedule by its words, those past the registers being zero (log entry 17). -/
theorem roundKey_eq_getD (rk : Vector Word 60) :
    roundKey rk = fun r => #v[rk[4 * r]?.getD 0, rk[4 * r + 1]?.getD 0, rk[4 * r + 2]?.getD 0,
      rk[4 * r + 3]?.getD 0] := by
  funext r
  simp only [roundKey, scheduleWord_eq_getD]

/-- Settles O49: KEYSCHED leaves a schedule of its size, and ENCRYPT reads its words as they stand in RK. -/
theorem keyschedThenEncryptIsAes : Obligations.KeyschedThenEncryptIsAes := by
  intro k s
  have hvalid : (keySchedCmd k s).ksValid = true := by rw [keySchedCmd_eq]
  have hsize : (keySchedCmd k s).ksSize = k.code := by rw [keySchedCmd_eq]
  have hblk : (keySchedCmd k s).blkIn = s.blkIn := by rw [keySchedCmd_eq]
  have hu := encryptCmd_of_schedule hvalid hsize
  refine ⟨_, _, fun n => (keySchedCmd k s).rk[n]?.getD 0, exec_keysched k s, exec_encrypt k _,
    flatSchedule_keySchedCmd k s, ?block, ?err, ?input⟩
  case block => rw [hu, roundKey_eq_getD, hblk]
  case err => rw [hu]
  case input => rw [hu, hblk]

end Sys2Proof.Proofs
end

section
/-! ## The pseudo-instructions

Each pseudo-instruction of 30_encoding.md R88 is a queue of accesses. Writes to consecutive registers of one kind
leave their words there in order, reads are answered in order, and the primitives are driven by writes of P_ACC,
P_IN and CMD. -/

namespace Sys2Proof.Proofs

open Sys2Proof.Machine Sys2Proof.Laws

theorem ofNat_aligned {n : Nat} (hn : n % 4 = 0) : (BitVec.ofNat 9 n).toNat % 4 = 0 := by
  rw [BitVec.toNat_ofNat]
  omega

section
variable {m base : Nat} {reg : Fin m → Reg}

/-- A run of `n` steps after a first step, for what is wanted of its end. -/
theorem run_of_step {s t : State} {n : Nat} {P : State → Prop} (h : step s = .next t)
    (hrun : ∃ u : State, Sys2Proof.core.run n t = .next u ∧ P u) :
    ∃ u : State, Sys2Proof.core.run (n + 1) s = .next u ∧ P u := by
  rwa [run_succ n h]

/-- Writing words to consecutive registers from number `i`: the registers before it keep their words, the others
take theirs as far as the words go. -/
theorem run_wrAll (hmap : ∀ j : Fin m, regAt (BitVec.ofNat 9 (base + 4 * j.val)) = reg j)
    (hinj : Function.Injective reg) (hwritable : ∀ j, (reg j).hostWritable = true) (hbase : base % 4 = 0)
    (h : Nat) (ws : List Word) (i : Nat) (hfit : i + ws.length ≤ m) (s : State)
    (hp : s.pending = wrAll h (base + 4 * i) ws) :
    ∃ t : State, Sys2Proof.core.run ws.length s = .next t ∧ ∀ j : Fin m, readReg (reg j) t =
      if j.val < i then readReg (reg j) s else ws[j.val - i]?.getD (readReg (reg j) s) := by
  induction ws generalizing i s with
  | nil => exact ⟨s, rfl, fun j => by simp⟩
  | cons w ws ih =>
    rw [List.length_cons] at hfit
    have hi : i < m := by omega
    have hoff := hmap ⟨i, hi⟩
    have hw : (regAt (BitVec.ofNat 9 (base + 4 * i))).hostWritable = true := by rw [hoff]; exact hwritable _
    obtain ⟨u, hstep, hsame, hother, hq, -⟩ :=
      hostWriteChangesOnlyItsRegister s h _ w _ hp (ofNat_aligned (by omega)) hw
    rw [hoff] at hsame hother
    obtain ⟨t, hrun, hread⟩ := ih (i + 1) (by omega) u hq
    refine run_of_step hstep ⟨t, hrun, fun j => ?_⟩
    rw [hread j]
    obtain hji | hji | hji := Nat.lt_trichotomy j.val i
    · have hne : j ≠ ⟨i, hi⟩ := Fin.ne_of_lt hji
      rw [if_pos (by omega), if_pos hji, hother _ (hinj.ne hne)]
    · obtain rfl : j = ⟨i, hi⟩ := Fin.ext hji
      rw [if_pos (Nat.lt_succ_self _), if_neg (Nat.lt_irrefl _), hsame, Nat.sub_self]
      rfl
    · have hne : j ≠ ⟨i, hi⟩ := Fin.ne_of_gt hji
      rw [if_neg (by omega), if_neg (by omega), hother _ (hinj.ne hne),
        show j.val - i = j.val - (i + 1) + 1 by omega, List.getElem?_cons_succ]

end

theorem reg_key_injective : Function.Injective Reg.key := fun _ _ h => Reg.key.inj h

theorem reg_blkIn_injective : Function.Injective Reg.blkIn := fun _ _ h => Reg.blkIn.inj h

/-- Reading consecutive registers is answered with their words in order, and changes none. -/
theorem run_rdAll (h n base : Nat) (hbase : base % 4 = 0) (s : State) (hp : s.pending = rdAll h base n) :
    ∃ t : State, Sys2Proof.core.run n s = .next t ∧ t.answers =
      s.answers ++ (List.range n).map fun i => ⟨h, .readData (regRead (BitVec.ofNat 9 (base + 4 * i)) s)⟩ := by
  induction n generalizing base s with
  | zero => exact ⟨s, rfl, by simp⟩
  | succ n ih =>
    have hstep := step_read s h _ _ hp (ofNat_aligned hbase)
    obtain ⟨t, hrun, hans⟩ := ih (base + 4) (by omega)
      ((s.setPending (rdAll h (base + 4) n)).answer h (.readData (regRead (BitVec.ofNat 9 base) s))) rfl
    refine run_of_step hstep ⟨t, hrun, ?_⟩
    rw [hans, List.range_succ_eq_map]
    simp [regRead, Nat.mul_succ, Nat.add_assoc, Nat.add_comm 4]

/-- Registers overwritten by a list of words hold it from the first on; the rest keep theirs. -/
theorem getElem?_of_overwritten {m : Nat} {xs ys : Vector Word m} {ws : List Word}
    (h : ∀ j : Fin m, ys[j] = ws[j.val]?.getD xs[j]) (hfit : ws.length ≤ m) (n : Nat) :
    ys[n]? = if n < ws.length then ws[n]? else xs[n]? := by
  obtain hn | hn := Nat.lt_or_ge n m
  · have hy : ys[n] = ws[n]?.getD xs[n] := h ⟨n, hn⟩
    rw [Vector.getElem?_eq_getElem hn, Vector.getElem?_eq_getElem hn, hy]
    split
    · rename_i hlt
      rw [List.getElem?_eq_getElem hlt]
      rfl
    · rename_i hge
      rw [List.getElem?_eq_none (Nat.not_lt.1 hge)]
      rfl
  · rw [if_neg (by omega), Vector.getElem?_eq_none hn, Vector.getElem?_eq_none hn]

theorem keySize_nk_le_eight (k : KeySize) : k.nk ≤ 8 := by cases k <;> decide

/-- Settles O55: LDKEY writes the key's words to consecutive KEY registers from the first. -/
theorem ldkeyPlacesTheKeyWords : Obligations.LdkeyPlacesTheKeyWords := by
  intro k h key s hkey hp
  have hlen : (bytesToWords key).length = k.nk := (codecPlacesEachByte.1 k.nk key hkey).1
  have hfit : (bytesToWords key).length ≤ 8 := hlen.trans_le (keySize_nk_le_eight k)
  obtain ⟨t, hrun, hread⟩ := run_wrAll (base := 0x040) regAt_key reg_key_injective (fun _ => rfl) rfl h
    (bytesToWords key) 0 (by omega) s hp
  have hwords (n : Nat) := getElem?_of_overwritten (xs := s.key) (ys := t.key) hread hfit n
  rw [hlen] at hrun hwords
  refine ⟨t, hrun, List.ext_getElem? fun n => ?material, fun n hn => ?rest⟩
  case material =>
    rw [keyMaterial_getElem?, hwords]
    split
    · rfl
    · rename_i hn
      rw [List.getElem?_eq_none (by omega)]
  case rest => rw [hwords, if_neg (by omega)]

theorem blkOut_toList (s : State) :
    s.blkOut.toList = (List.range 4).map fun i => regRead (BitVec.ofNat 9 (0x030 + 4 * i)) s := by
  refine List.ext_getElem (by simp) fun i hi _ => ?_
  rw [Vector.length_toList] at hi
  rw [List.getElem_map, List.getElem_range, Vector.getElem_toList]
  exact (regRead_of_regAt (regAt_blkOut ⟨i, hi⟩) s).symm

/-- Settles O56: LDBLK writes the block's words to the four BLK_IN registers, and RDBLK reads the four BLK_OUT
registers. -/
theorem ldblkAndRdblkMoveBlocks : Obligations.LdblkAndRdblkMoveBlocks := by
  intro h s
  refine ⟨fun b hb hp => ?load, fun hp => ?read⟩
  case load =>
    have hlen : (bytesToWords b).length = 4 := (codecPlacesEachByte.1 4 b hb).1
    obtain ⟨t, hrun, hread⟩ := run_wrAll (base := 0x020) regAt_blkIn reg_blkIn_injective (fun _ => rfl) rfl h
      (bytesToWords b) 0 (by omega) s hp
    have hwords (n : Nat) := getElem?_of_overwritten (xs := s.blkIn) (ys := t.blkIn) hread hlen.le n
    rw [hlen] at hrun hwords
    refine ⟨t, hrun, List.ext_getElem? fun n => ?_⟩
    rw [Vector.getElem?_toList, hwords]
    split
    · rfl
    · rename_i hn
      rw [List.getElem?_eq_none (by omega), Vector.getElem?_eq_none (by omega)]
  case read =>
    obtain ⟨t, hrun, hans⟩ := run_rdAll h 4 0x030 rfl s hp
    refine ⟨t, hrun, ?_⟩
    rw [hans, blkOut_toList, List.map_map]
    rfl

/-! The pseudo-instructions that compute in P_ACC. -/

/-- What waits, and the two registers of the primitives. -/
def PrimState (q : List BusEvent) (acc inp : Word) (s : State) : Prop :=
  s.pending = q ∧ s.pAcc = acc ∧ s.pIn = inp

section
variable {h : Nat} {q : List BusEvent} {acc inp : Word} {s : State}

theorem step_wr_pAcc {v : Word} (hs : PrimState (wr h 0x010 v :: q) acc inp s) :
    ∃ t, step s = .next t ∧ PrimState q v inp t := by
  obtain ⟨hp, -, hin⟩ := hs
  exact ⟨_, step_write s h 0x010 v q hp rfl (by decide), rfl, rfl, hin⟩

theorem step_wr_pIn {v : Word} (hs : PrimState (wr h 0x014 v :: q) acc inp s) :
    ∃ t, step s = .next t ∧ PrimState q acc v t := by
  obtain ⟨hp, hacc, -⟩ := hs
  exact ⟨_, step_write s h 0x014 v q hp rfl (by decide), rfl, hacc, rfl⟩

theorem step_cmd_encround {b : BitVec 2} (hs : PrimState (cmd h (.encround b) :: q) acc inp s) :
    ∃ t, step s = .next t ∧ PrimState q (encRound acc inp b) inp t := by
  obtain ⟨hp, rfl, rfl⟩ := hs
  exact ⟨_, step_of_command hp (decode_encode _) rfl, rfl, rfl, rfl⟩

theorem step_cmd_encroundlast {b : BitVec 2} (hs : PrimState (cmd h (.encroundlast b) :: q) acc inp s) :
    ∃ t, step s = .next t ∧ PrimState q (encRoundLast acc inp b) inp t := by
  obtain ⟨hp, rfl, rfl⟩ := hs
  exact ⟨_, step_of_command hp (decode_encode _) rfl, rfl, rfl, rfl⟩

theorem run_zero (s : State) : Sys2Proof.core.run 0 s = .next s := rfl

/-- SUBWORD calls EncRoundLast on one word with each selector in turn. -/
theorem run_subword {w : Word} (hp : s.pending = subword h w) :
    ∃ t : State, Sys2Proof.core.run 6 s = .next t ∧ t.pAcc = accumulate encRoundLast 0 w w w w := by
  obtain ⟨s1, h1, p1⟩ := step_wr_pAcc ⟨hp, rfl, rfl⟩
  obtain ⟨s2, h2, p2⟩ := step_wr_pIn p1
  obtain ⟨s3, h3, p3⟩ := step_cmd_encroundlast p2
  obtain ⟨s4, h4, p4⟩ := step_cmd_encroundlast p3
  obtain ⟨s5, h5, p5⟩ := step_cmd_encroundlast p4
  obtain ⟨s6, h6, -, hacc, -⟩ := step_cmd_encroundlast p5
  exact ⟨s6, by rw [run_succ _ h1, run_succ _ h2, run_succ _ h3, run_succ _ h4, run_succ _ h5, run_succ _ h6,
    run_zero], hacc⟩

/-- MIXCOL calls EncRound on the four words, each with its own selector. -/
theorem run_mixcol {a w0 w1 w2 w3 : Word} (hp : s.pending = mixcol h a w0 w1 w2 w3) :
    ∃ t : State, Sys2Proof.core.run 9 s = .next t ∧ t.pAcc = accumulate encRound a w0 w1 w2 w3 := by
  obtain ⟨s1, h1, p1⟩ := step_wr_pAcc ⟨hp, rfl, rfl⟩
  obtain ⟨s2, h2, p2⟩ := step_wr_pIn p1
  obtain ⟨s3, h3, p3⟩ := step_cmd_encround p2
  obtain ⟨s4, h4, p4⟩ := step_wr_pIn p3
  obtain ⟨s5, h5, p5⟩ := step_cmd_encround p4
  obtain ⟨s6, h6, p6⟩ := step_wr_pIn p5
  obtain ⟨s7, h7, p7⟩ := step_cmd_encround p6
  obtain ⟨s8, h8, p8⟩ := step_wr_pIn p7
  obtain ⟨s9, h9, -, hacc, -⟩ := step_cmd_encround p8
  exact ⟨s9, by rw [run_succ _ h1, run_succ _ h2, run_succ _ h3, run_succ _ h4, run_succ _ h5, run_succ _ h6,
    run_succ _ h7, run_succ _ h8, run_succ _ h9, run_zero], hacc⟩

end

/-- Settles O57: both sequences are the four calls of an output word, of one word or of four. -/
theorem subwordAndMixcolCompute : Obligations.SubwordAndMixcolCompute := by
  refine fun h s => ⟨fun w hp => ?subword, fun acc w0 w1 w2 w3 hp => ?mixcol⟩
  case subword =>
    obtain ⟨t, hrun, hacc⟩ := run_subword hp
    refine ⟨t, hrun, ?_⟩
    rw [hacc, accumulate_encRoundLast_same, subWord_eq_subBytesWord]
    exact BitVec.zero_xor
  case mixcol =>
    obtain ⟨t, hrun, hacc⟩ := run_mixcol hp
    refine ⟨t, hrun, ?_⟩
    rw [hacc, accumulate_encRound, subBytesWord_diagonal]

end Sys2Proof.Proofs
end
